-- ==== Sys2Proof/Word.lean ====
section
/-! DEFINITION. The word and byte types of bloom-core (00_scope.md R6, R11, R13) and the largest element
count (R12). Arithmetic on a `Word` is that of `BitVec 64`: it wraps modulo 2^64, as R11 says. -/

namespace Sys2Proof

/-- The spec's `u64`: filter words, hash values, command and response words (00_scope.md R6, R11). -/
abbrev Word := BitVec 64

/-- A byte of a message (00_scope.md R13). -/
abbrev Byte := BitVec 8

/-- `IMAX = 2^63 - 1`, the largest `i64` (00_scope.md R12). -/
def IMAX : Word := 0x7FFFFFFFFFFFFFFF#64

end Sys2Proof
end

