-- ==== Sys2Proof/Config.lean ====
section
/-! DEFINITION. What an implementation of bloom-core fixes: the defaults and the legal ranges of the two
parameters, the room of the two channels at reset, and the constants of the hash.

The parameters are OPEN in the spec (92_eei_decisions.md D4, D5: "The model takes it as an argument"). The
machine reads them from its state (`State.nslots`, `State.maxlgw`), so a statement about every state is a
statement about every configuration; only the reset state takes the defaults below (log 3). -/

namespace Sys2Proof

/-- The default number of slots (00_scope.md R7). -/
def Config.nslots : Nat := 4

/-- The default base-2 logarithm of the largest word count (00_scope.md R8). -/
def Config.maxlgw : Nat := 16

/-- The legal range of `NSLOTS` (00_scope.md R7). -/
abbrev Config.NslotsLegal (n : Nat) : Prop := 1 ≤ n ∧ n ≤ 16

/-- The legal range of `MAXLGW` (00_scope.md R8). -/
abbrev Config.MaxlgwLegal (n : Nat) : Prop := n ≤ 48

/-- How many responses may wait at reset while the block takes a command: none (70_reset_and_hazards.md R226, DESIGN
CHOICE, log 1). -/
def Config.responseRoom : Nat := 0

/-- How many whole packets may wait at reset while the block takes a word: none (R226, DESIGN CHOICE, log 1). -/
def Config.commandRoom : Nat := 0

/-- Multiplier `C1` (40_hashcore.md R102). -/
def Config.C1 : Word := 0x87c37b91114253d5#64
/-- Multiplier `C2` (40_hashcore.md R102). -/
def Config.C2 : Word := 0x4cf5ad432745937f#64
/-- Block additive constant `A1`, for h1 (40_hashcore.md R102). -/
def Config.A1 : Word := 0x52dce729#64
/-- Block additive constant `A2`, for h2 (40_hashcore.md R102). -/
def Config.A2 : Word := 0x38495ab5#64
/-- Finalizer multiplier `M1` (40_hashcore.md R102). -/
def Config.M1 : Word := 0xff51afd7ed558ccd#64
/-- Finalizer multiplier `M2` (40_hashcore.md R102). -/
def Config.M2 : Word := 0xc4ceb9fe1a85ec53#64

end Sys2Proof
end

