-- ==== Sys2Proof/Machine/Numeric.lean ====
section
/-! DEFINITION. The three numeric functions of 00_scope.md R9: `SIZE_WORDS` (41_filter_construct.md R131),
`SIZE_PROBES` (R133) and `EST` (43_filter_union.md R166), each the floor of a real number with one natural
logarithm in it, evaluated exactly. The logarithm is enclosed between two naturals over a scale, at precision `d` with
`256 * 2^d` binary places, and the precision rises until both ends have the same floor. The spec says that the real
values are at no tie (R135, R167), so that happens; `Laws/Exact.lean` proves it, and that the value is the spec's
(log 5). -/

namespace Sys2Proof.Machine

/-! ## The logarithm -/

/-- The scale of the enclosures at precision `d`: `x` stands for the real `x / scale`. -/
def lnScale (d : Nat) : Nat := 2 ^ (256 * 2 ^ d)

/-- How many terms of the series are summed at precision `d`. -/
def lnTerms (d : Nat) : Nat := 88 * 2 ^ d

/-- Lower end of the sum of `z^(2j) / (2(i+j) + 1)` over `j`, `z = u / v`, by Horner's rule with `n` terms. -/
def seriesLo (d u v : Nat) : Nat → Nat → Nat
  | 0, _ => 0
  | n + 1, i => lnScale d / (2 * i + 1) + u * u * seriesLo d u v n (i + 1) / (v * v)

/-- Upper end of the same sum, for `z` at most 1/3. -/
def seriesHi (d u v : Nat) : Nat → Nat → Nat
  | 0, _ => 2 * lnScale d
  | n + 1, i => (lnScale d / (2 * i + 1) + 1) + (u * u * seriesHi d u v n (i + 1) / (v * v) + 1)

/-- Lower end of `ln (a / b)` for `b <= a <= 2b`: `2 z (1 + z^2/3 + z^4/5 + ..)` with `z = (a - b) / (a + b)`. -/
def lnUnitLo (d a b : Nat) : Nat := 2 * (a - b) * seriesLo d (a - b) (a + b) (lnTerms d) 0 / (a + b)

/-- Upper end of the same. -/
def lnUnitHi (d a b : Nat) : Nat := 2 * (a - b) * seriesHi d (a - b) (a + b) (lnTerms d) 0 / (a + b) + 1

/-- Lower end of `ln (a / b)` for `0 < b <= a`: the whole powers of two taken out. -/
def lnLo (d a b : Nat) : Nat :=
  let e := (a / b).log2
  e * lnUnitLo d 2 1 + lnUnitLo d a (b * 2 ^ e)

/-- Upper end of the same. -/
def lnHi (d a b : Nat) : Nat :=
  let e := (a / b).log2
  e * lnUnitHi d 2 1 + lnUnitHi d a (b * 2 ^ e)

/-! ## The floor of a real between two ends -/

/-- The common value of the two ends at the first precision from `d` on at which they agree; `none` if they never
agree. -/
def settle (lo hi : Nat → Nat) (d : Nat) : Option Nat :=
  if lo d = hi d then some (lo d) else settle lo hi (d + 1)
partial_fixpoint

/-- The integer both ends agree on. Precision 0 stands apart so that the kernel evaluates the function wherever that
precision decides. -/
def agreed (lo hi : Nat → Nat) : Nat := if lo 0 = hi 0 then lo 0 else (settle lo hi 1).getD 0

/-- Lower and upper end of `floor((a / b) ln(x / y))` at precision `d`. -/
def lnFloorLo (a b x y d : Nat) : Nat := a * lnLo d x y / (b * lnScale d)
def lnFloorHi (a b x y d : Nat) : Nat := a * lnHi d x y / (b * lnScale d)

/-- `floor((a / b) ln(x / y))` for `0 < b` and `0 < y <= x` (00_scope.md R14). -/
def lnFloor (a b x y : Nat) : Nat := agreed (lnFloorLo a b x y) (lnFloorHi a b x y)

/-! ## The three functions -/

/-- `SIZE_WORDS(n, p) = floor((325/10000) ln(p) n)` for p >= 2 (41_filter_construct.md R131); 325/10000 is 13/400. -/
def sizeWords (n p : Nat) : Nat := lnFloor (13 * n) 400 p 1

/-- `SIZE_PROBES(p) = floor((14/10) ln(p)) + 1` for p >= 2 (41_filter_construct.md R133); 14/10 is 7/5. -/
def sizeProbes (p : Nat) : Nat := lnFloor 7 5 p 1 + 1

/-- `EST(m, k, X) = floor((m/k) ln(m/(m-X)))` for X < m (43_filter_union.md R166). -/
def est (m k x : Nat) : Nat := lnFloor m k m (m - x)

end Sys2Proof.Machine
end

