-- ==== Sys2Proof/Syntax.lean ====
section
/-! DEFINITION. The commands of BC-1, one constructor of `Instr` per row of spec/opcode_table.json, and the
packets that carry commands and responses (30_encoding.md R70 to R75, R82). -/

namespace Sys2Proof

/-- A command packet: a non-empty sequence of 64-bit words, `c[0]` the header (30_encoding.md R70). -/
structure Packet where
  /-- `c[0]` -/
  header : Word
  /-- `c[1] ..` -/
  body   : List Word
deriving DecidableEq, Repr

/-- A response packet: the status word `r[0]`, then the result words (30_encoding.md R82, R84). -/
structure Response where
  /-- `r[0]` -/
  status  : Word
  /-- `r[1] ..` -/
  results : List Word
deriving DecidableEq, Repr

/-- A slot field of a header: 4 bits (30_encoding.md R71). -/
abbrev SlotNum := BitVec 4

/-- The eight commands with their operands (30_encoding.md R75, R81). -/
inductive Instr where
  /-- HASH msg (40_hashcore.md R119). -/
  | hash (msg : List Byte)
  /-- FNEW fd, n, p (41_filter_construct.md R130). -/
  | fnew (fd : SlotNum) (n p : Word)
  /-- FADD fd, msg (42_filter_insert_test.md R145). -/
  | fadd (fd : SlotNum) (msg : List Byte)
  /-- FTEST fd, msg (42_filter_insert_test.md R148). -/
  | ftest (fd : SlotNum) (msg : List Byte)
  /-- FCOUNT fd (42_filter_insert_test.md R150). -/
  | fcount (fd : SlotNum)
  /-- FUNION fd, fa, fb (43_filter_union.md R160). -/
  | funion (fd fa fb : SlotNum)
  /-- FLOAD fd, W, probes, count, words (44_filter_transfer.md R180). -/
  | fload (fd : SlotNum) (W probes count : Word) (words : List Word)
  /-- FSTORE fd (44_filter_transfer.md R183). -/
  | fstore (fd : SlotNum)
deriving DecidableEq, Repr

/-- The opcodes of 30_encoding.md R75, by name. -/
inductive Op where
  | hash | fnew | fadd | ftest | fcount | funion | fload | fstore
deriving DecidableEq, Repr

/-- The four packet formats of 30_encoding.md R72. -/
inductive Format where
  /-- slots only -/
  | S
  /-- parameters -/
  | P
  /-- message -/
  | M
  /-- load -/
  | L
deriving DecidableEq, Repr

/-- The command a packet of `Instr` is. -/
def Instr.op : Instr → Op
  | .hash _ => .hash
  | .fnew _ _ _ => .fnew
  | .fadd _ _ => .fadd
  | .ftest _ _ => .ftest
  | .fcount _ => .fcount
  | .funion _ _ _ => .funion
  | .fload _ _ _ _ _ => .fload
  | .fstore _ => .fstore

/-- The error codes other than OK (60_exceptions.md R191). -/
inductive Err where
  | errIllegal | errFormat | errSlot | errParam | errCapacity | errNofilter | errAlias | errIncompat
deriving DecidableEq, Repr

end Sys2Proof
end

