-- ==== Sys2Proof/WellFormed.lean ====
section
/-! DEFINITION. Which terms of `Instr` a packet can carry: a message's length is a `u64` byte count
(30_encoding.md R73), and FLOAD's operand `W` is the number of array words that follow (R72). Slot numbers are
4-bit fields and the other operands whole words, so every value of theirs is encodable (R81). -/

namespace Sys2Proof

/-- A message whose length fits the length word `c[1]` (30_encoding.md R73). -/
def messageFits (msg : List Byte) : Bool := decide (msg.length < 2 ^ 64)

/-- The check on an instruction's term. -/
def Instr.wellFormed : Instr → Bool
  | .hash msg => messageFits msg
  | .fnew _ _ _ => true
  | .fadd _ msg => messageFits msg
  | .ftest _ msg => messageFits msg
  | .fcount _ => true
  | .funion _ _ _ => true
  | .fload _ W _ _ words => decide (words.length = W.toNat)
  | .fstore _ => true

end Sys2Proof
end

