-- ==== Sys2Proof/Decode.lean ====
section
/-! DEFINITION. Decoding of command packets in the order of 30_encoding.md R79, steps (1) to (3), and the encoder
(R71 to R76). Step (4), the slot numbers against `NSLOTS`, needs the machine's parameter and is the first thing
each meaning does (`Machine/Operands.lean`, log 11). -/

namespace Sys2Proof

/-! ## Header fields (30_encoding.md R71) -/

/-- Header bits 63:56. -/
def Packet.opc (p : Packet) : BitVec 8 := p.header.extractLsb' 56 8
/-- Header bits 55:52. -/
def Packet.fd (p : Packet) : SlotNum := p.header.extractLsb' 52 4
/-- Header bits 51:48. -/
def Packet.fa (p : Packet) : SlotNum := p.header.extractLsb' 48 4
/-- Header bits 47:44. -/
def Packet.fb (p : Packet) : SlotNum := p.header.extractLsb' 44 4
/-- Header bits 43:0, reserved. -/
def Packet.rsv (p : Packet) : BitVec 44 := p.header.extractLsb' 0 44

/-! ## The opcode map (30_encoding.md R75) -/

/-- The opcode byte of a command. -/
def Op.code : Op → BitVec 8
  | .hash => 0x01#8
  | .fnew => 0x10#8
  | .fadd => 0x11#8
  | .ftest => 0x12#8
  | .fcount => 0x13#8
  | .funion => 0x14#8
  | .fload => 0x18#8
  | .fstore => 0x19#8

/-- The commands, in the order of the map. -/
def Op.all : List Op := [.hash, .fnew, .fadd, .ftest, .fcount, .funion, .fload, .fstore]

/-- The command an opcode byte names; every other byte is illegal (30_encoding.md R78). -/
def Op.ofByte (b : BitVec 8) : Option Op := Op.all.find? (fun o => o.code == b)

/-- The packet format of a command. -/
def Op.format : Op → Format
  | .hash => .M
  | .fnew => .P
  | .fadd => .M
  | .ftest => .M
  | .fcount => .S
  | .funion => .S
  | .fload => .L
  | .fstore => .S

/-- Column "slots used": every command but HASH uses FD. -/
def Op.usesFD : Op → Bool
  | .hash => false
  | .fnew => true
  | .fadd => true
  | .ftest => true
  | .fcount => true
  | .funion => true
  | .fload => true
  | .fstore => true

/-- Column "slots used": only FUNION uses FA and FB. -/
def Op.usesFAFB : Op → Bool
  | .hash => false
  | .fnew => false
  | .fadd => false
  | .ftest => false
  | .fcount => false
  | .funion => true
  | .fload => false
  | .fstore => false

/-- Reserved bits zero and unused slot fields zero (30_encoding.md R76, R77). -/
def headerClean (o : Op) (p : Packet) : Bool :=
  p.rsv == 0#44 && (o.usesFD || p.fd == 0#4) && (o.usesFAFB || (p.fa == 0#4 && p.fb == 0#4))

/-! ## Packet lengths (30_encoding.md R72) -/

/-- `ceil(L/8)`, computed as R72 says. -/
def payloadWords (L : Word) : Nat := (L >>> 3).toNat + (if L &&& 7#64 = 0#64 then 0 else 1)

/-- The number of words after the header that a format requires, where the packet's first words after the header
are `body`; `none` where the word that gives the length is missing, or FLOAD's three operand words are. -/
def bodyWords (f : Format) (body : List Word) : Option Nat :=
  match f, body with
  | .S, _ => some 0
  | .P, _ => some 2
  | .M, L :: _ => some (1 + payloadWords L)
  | .M, [] => none
  | .L, W :: _ :: _ :: _ => some (3 + W.toNat)
  | .L, _ => none

/-- The packet has the length its format requires. -/
def lengthOk (f : Format) (body : List Word) : Bool := bodyWords f body == some body.length

/-! ## Messages (30_encoding.md R73, R74; 20_memory.md R56) -/

/-- `le64` of at most eight bytes, missing ones zero (00_scope.md R13; 40_hashcore.md R109). -/
def le64 : List Byte → Word
  | [] => 0#64
  | b :: bs => b.setWidth 64 ||| (le64 bs <<< 8)

/-- The eight bytes of a payload word, lowest-numbered first (30_encoding.md R73). -/
def wordBytes (w : Word) : List Byte :=
  [w.extractLsb' 0 8, w.extractLsb' 8 8, w.extractLsb' 16 8, w.extractLsb' 24 8,
   w.extractLsb' 32 8, w.extractLsb' 40 8, w.extractLsb' 48 8, w.extractLsb' 56 8]

/-- The message of a format M packet: the first `L` bytes of the payload, the pad bytes dropped. -/
def messageOf (body : List Word) : List Byte :=
  match body with
  | [] => []
  | L :: payload => (payload.flatMap wordBytes).take L.toNat

/-- The payload words of a message, `n` of them, pad bytes zero. -/
def packWords : Nat → List Byte → List Word
  | 0, _ => []
  | n + 1, bs => le64 (bs.take 8) :: packWords n (bs.drop 8)

/-! ## The decoder -/

/-- Operand word `c[1 + i]`. -/
def Packet.operand (p : Packet) (i : Nat) : Word := p.body.getD i 0#64

/-- The instruction of a packet that has passed the checks (30_encoding.md R75, R81). -/
def assemble (o : Op) (p : Packet) : Instr :=
  match o with
  | .hash => .hash (messageOf p.body)
  | .fnew => .fnew p.fd (p.operand 0) (p.operand 1)
  | .fadd => .fadd p.fd (messageOf p.body)
  | .ftest => .ftest p.fd (messageOf p.body)
  | .fcount => .fcount p.fd
  | .funion => .funion p.fd p.fa p.fb
  | .fload => .fload p.fd (p.operand 0) (p.operand 1) (p.operand 2) (p.body.drop 3)
  | .fstore => .fstore p.fd

/-- Steps (1) to (3) of 30_encoding.md R79: known opcode and clean header, else ERR_ILLEGAL; then the length, else
ERR_FORMAT. -/
def decode (p : Packet) : Except Err Instr :=
  match Op.ofByte p.opc with
  | none => .error .errIllegal
  | some o =>
    if headerClean o p then
      if lengthOk o.format p.body then .ok (assemble o p) else .error .errFormat
    else .error .errIllegal

/-! ## The encoder -/

/-- The header word of 30_encoding.md R71, RSV zero. -/
def encodeHeader (o : Op) (fd fa fb : SlotNum) : Word :=
  (o.code.setWidth 64 <<< 56) ||| (fd.setWidth 64 <<< 52) ||| (fa.setWidth 64 <<< 48) ||| (fb.setWidth 64 <<< 44)

/-- The words after the header of a format M packet. -/
def encodeMessage (msg : List Byte) : List Word :=
  BitVec.ofNat 64 msg.length :: packWords ((msg.length + 7) / 8) msg

/-- The packet of a well-formed instruction (30_encoding.md R71 to R76), pad bytes zero. -/
def encode : Instr → Packet
  | .hash msg => ⟨encodeHeader .hash 0 0 0, encodeMessage msg⟩
  | .fnew fd n p => ⟨encodeHeader .fnew fd 0 0, [n, p]⟩
  | .fadd fd msg => ⟨encodeHeader .fadd fd 0 0, encodeMessage msg⟩
  | .ftest fd msg => ⟨encodeHeader .ftest fd 0 0, encodeMessage msg⟩
  | .fcount fd => ⟨encodeHeader .fcount fd 0 0, []⟩
  | .funion fd fa fb => ⟨encodeHeader .funion fd fa fb, []⟩
  | .fload fd W k c ws => ⟨encodeHeader .fload fd 0 0, W :: k :: c :: ws⟩
  | .fstore fd => ⟨encodeHeader .fstore fd 0 0, []⟩

/-! ## Words of the opcode table -/

/-- Word `i` of a number whose bits count on from word to word, bit 0 the least significant of the first word. -/
def tableWordAt (w i : Nat) : Word := BitVec.ofNat 64 (w / 2 ^ (64 * i))

/-- The packet whose first `nbits` bits are `w` and whose further words, up to the length its format requires,
are zero. -/
def tablePacket (nbits w : Nat) : Packet :=
  let header := tableWordAt w 0
  let given := (List.range ((nbits + 63) / 64 - 1)).map (fun i => tableWordAt w (i + 1))
  let need :=
    match Op.ofByte (header.extractLsb' 56 8) with
    | none => 0
    | some o => (bodyWords o.format (given ++ List.replicate (3 - given.length) 0#64)).getD 0
  ⟨header, given ++ List.replicate (need - given.length) 0#64⟩

/-- What the decoder reads from an instruction of the opcode table (the host's fixed name). -/
def decodeTableWord (nbits w : Nat) : Option Instr :=
  match decode (tablePacket nbits w) with
  | .ok i => some i
  | .error _ => none

end Sys2Proof
end

