-- ==== Sys2Proof/Machine/State.lean ====
section
/-! DEFINITION. The state of bloom-core (10_state.md, 70_reset_and_hazards.md R220 to R222) as plain data, the
reasons a step could stop, and the state after reset. INVENTORY.md, State, says where each piece of the spec's
state stands. -/

namespace Sys2Proof.Machine

/-- The word array of one filter (20_memory.md R50 to R52): pairs of a word index and a word, the indices strictly
rising, no word zero; an unlisted word reads as zero (log 4). The unit is the 64-bit word, the only access width
there is (R52). The operations and the canonical form are in `Machine/Ops.lean`. -/
abbrev Memory := List (Nat × Word)

/-- The filter a VALID slot holds (10_state.md R22 to R25). -/
structure Filter where
  /-- `F[s].W`, the word count (R22). -/
  W      : Nat
  /-- `F[s].probes`, the probe count k (R24). -/
  probes : BitVec 32
  /-- `F[s].count`, an i64 in two's complement (R25). -/
  count  : Word
  /-- `F[s].words` (R23). -/
  words  : Memory
deriving DecidableEq, Repr

/-- The whole machine. -/
structure State where
  /-- The parameter `MAXLGW` (00_scope.md R8); no step changes it (log 3). -/
  maxlgw    : Nat
  /-- How many responses may wait for the host while the block still takes a command; with more it holds back
  (70_reset_and_hazards.md R226). Fixed by the implementation; no step changes it (log 1). -/
  responseRoom : Nat
  /-- How many whole packets may wait while the block still takes a word; with more it makes the host wait (R226).
  Fixed by the implementation; no step changes it (log 1). -/
  commandRoom : Nat
  /-- The slots `F[0] .. F[NSLOTS - 1]`: `none` is EMPTY, `some f` is VALID (10_state.md R20, R21; log 2). Their
  number is the parameter `NSLOTS` (log 3). -/
  slots     : List (Option Filter)
  /-- The reset input is asserted (70_reset_and_hazards.md R220; log 8). -/
  resetIn   : Bool
  /-- The words of a command packet received so far, its end not yet marked (R222, 30_encoding.md R70; log 13). -/
  incoming  : List Word
  /-- The command packets received whole and not yet executed, oldest first (20_memory.md R58). -/
  commands  : List Packet
  /-- The response packets the host has not yet taken, oldest first (30_encoding.md R82). -/
  responses : List Response
deriving DecidableEq, Repr

/-- Why a step could stop with a fault: never. No behaviour of the block is stuck, every error is a response
(93_implementation_defined.md, end of part 1; 60_exceptions.md R190, R201), so there is no constructor (log 15). -/
inductive Fault where
deriving DecidableEq, Repr

/-- Why a step could be refused. -/
inductive Refusal where
  /-- Raised only by an arm of `exec` whose instruction has no meaning yet; there is none. Safe. -/
  | notModelled (mnemonic : String)
deriving DecidableEq, Repr

/-- The parameter `NSLOTS` (00_scope.md R7, 10_state.md R20). -/
def State.nslots (s : State) : Nat := s.slots.length

/-- The reset state of a block with the given parameters: every slot EMPTY, the channels empty
(70_reset_and_hazards.md R221, 10_state.md R37), the reset input released (R220). -/
def State.resetWith (nslots maxlgw responseRoom commandRoom : Nat) : State :=
  { maxlgw := maxlgw
    responseRoom := responseRoom
    commandRoom := commandRoom
    slots := List.replicate nslots none
    resetIn := false
    incoming := []
    commands := []
    responses := [] }

/-- The machine right after reset, with the spec's default parameters (00_scope.md R7, R8; log 3) and the least room in
the channels (log 1). -/
def State.reset : State := State.resetWith Config.nslots Config.maxlgw Config.responseRoom Config.commandRoom

end Sys2Proof.Machine
end

