-- ==== Sys2Proof/Machine/Flags.lean ====
section
/-! DEFINITION. The status word of a response and the two one-bit conditions a command computes, SAT and HASALL
(30_encoding.md R83; 10_state.md R36). There is no status register: neither outlives its command. -/

namespace Sys2Proof.Machine

/-- The code of an error (60_exceptions.md R191). -/
def errCode : Err → BitVec 8
  | .errIllegal => 0x01#8
  | .errFormat => 0x02#8
  | .errSlot => 0x03#8
  | .errParam => 0x04#8
  | .errCapacity => 0x05#8
  | .errNofilter => 0x06#8
  | .errAlias => 0x07#8
  | .errIncompat => 0x08#8

/-- The code OK (60_exceptions.md R191). -/
def okCode : BitVec 8 := 0x00#8

/-- The status word: OPC in bits 63:56, SAT in bit 8, CODE in bits 7:0, the rest zero (30_encoding.md R83). -/
def statusWord (opc : BitVec 8) (sat : Bool) (code : BitVec 8) : Word :=
  (opc.setWidth 64 <<< 56) ||| (if sat then 0x100#64 else 0#64) ||| code.setWidth 64

/-- A one-bit result as a whole word, 0 or 1 (30_encoding.md R84). -/
def flagWord (b : Bool) : Word := if b then 1#64 else 0#64

/-- The count after an FADD and its SAT: plus 1 when a bit was newly set, held at IMAX with SAT = 1
(42_filter_insert_test.md R146). -/
def countAfterAdd (hasAll : Bool) (count : Word) : Word × Bool :=
  if hasAll then (count, false)
  else if count = IMAX then (count, true)
  else (count + 1#64, false)

end Sys2Proof.Machine
end

