-- ==== Sys2Proof/Machine/Operands.lean ====
section
/-! DEFINITION. The operand forms and their checks (30_encoding.md R76, R81): slot numbers against `NSLOTS`, the
operands of FNEW and FLOAD against their legal ranges. -/

namespace Sys2Proof.Machine

/-- A used slot field names an existing slot (30_encoding.md R76; 60_exceptions.md R194). -/
def slotExists (s : State) (n : SlotNum) : Bool := decide (n.toNat < s.nslots)

/-- `W` is a power of two at least 1 (44_filter_transfer.md R181). -/
def isPowerOfTwo (W : Nat) : Bool := W != 0 && 2 ^ W.log2 == W

/-- The probe count is in 1 to 2^32 - 1 (00_scope.md R6; 44_filter_transfer.md R181). -/
def probesLegal (k : Word) : Bool := k != 0#64 && decide (k.toNat < 2 ^ 32)

/-- The count is not negative as an i64 (44_filter_transfer.md R181). -/
def countLegal (c : Word) : Bool := decide (c.toNat < 2 ^ 63)

/-- FLOAD's operands are in their legal ranges, `W` against the slot's size apart (44_filter_transfer.md R181). -/
def loadOperandsLegal (W k c : Word) : Bool := isPowerOfTwo W.toNat && probesLegal k && countLegal c

/-- The inverse false-positive rate is at least 2 (41_filter_construct.md R136). -/
def rateLegal (p : Word) : Bool := decide (2 ≤ p.toNat)

end Sys2Proof.Machine
end

