-- ==== Sys2Proof/Machine/Ops.lean ====
section
/-! DEFINITION. The shared operations: word arrays (20_memory.md), slots (10_state.md), responding and ending in an
error (30_encoding.md R82 to R85; 60_exceptions.md R190, R201), receiving a packet, and reset. -/

namespace Sys2Proof.Machine

/-! ## Word arrays in canonical form (20_memory.md R50 to R52, log 4) -/

/-- `WordRead`: an unlisted word is zero. -/
def Memory.read : Memory → Nat → Word
  | [], _ => 0#64
  | (j, w) :: m, i => if i = j then w else Memory.read m i

/-- A cell in front of an array, left out when its word is zero. -/
def Memory.cons (i : Nat) (v : Word) (m : Memory) : Memory := if v = 0#64 then m else (i, v) :: m

/-- `WordWrite`: the whole word is replaced; a zero word is not listed. -/
def Memory.write : Memory → Nat → Word → Memory
  | [], i, v => Memory.cons i v []
  | (j, w) :: m, i, v =>
    if i < j then Memory.cons i v ((j, w) :: m)
    else if i = j then Memory.cons i v m
    else (j, w) :: Memory.write m i v

/-- The canonical form from index `lo` on: indices strictly rising from `lo` and below `W`, no word zero. -/
def Memory.wfFrom (lo W : Nat) : Memory → Bool
  | [] => true
  | (j, w) :: m => decide (lo ≤ j) && decide (j < W) && w != 0#64 && Memory.wfFrom (j + 1) W m

/-- The canonical form of an array of `W` words. -/
def Memory.wf (W : Nat) (m : Memory) : Bool := Memory.wfFrom 0 W m

/-- Bit `n` of the flat bit array: bit `n & 63` of word `n >> 6`, bit b the one of weight 2^b
(42_filter_insert_test.md R142, R143). -/
def Memory.bit (m : Memory) (n : Nat) : Bool := (Memory.read m (n / 64)).getLsbD (n % 64)

/-- Set bit `n`: read the word, OR in `1 << (n & 63)`, write it back (20_memory.md R52). -/
def Memory.setBit (m : Memory) (n : Nat) : Memory :=
  Memory.write m (n / 64) (Memory.read m (n / 64) ||| (1#64 <<< (n % 64)))

/-- OR one word into an array. -/
def Memory.orWord (m : Memory) (i : Nat) (w : Word) : Memory := Memory.write m i (Memory.read m i ||| w)

/-- The word-by-word OR of two arrays (43_filter_union.md R163); an unlisted word ORs in nothing. -/
def Memory.orInto (a : Memory) : Memory → Memory
  | [] => a
  | (j, w) :: b => Memory.orWord (Memory.orInto a b) j w

/-- The array whose words from index `i` on are the given ones (44_filter_transfer.md R180). -/
def Memory.ofWords : Nat → List Word → Memory
  | _, [] => []
  | i, w :: ws => Memory.cons i w (Memory.ofWords (i + 1) ws)

/-- Words 0 to W - 1 in order (44_filter_transfer.md R183). -/
def Memory.dump (W : Nat) (m : Memory) : List Word := (List.range W).map (Memory.read m)

/-! ## Slots (10_state.md R20, R21, R29) -/

/-- The filter in slot `n`; `none` when the slot is EMPTY. -/
def State.slot (s : State) (n : SlotNum) : Option Filter := s.slots.getD n.toNat none

/-- Put a filter into slot `n`, replacing whatever it held (R29). -/
def State.setSlot (s : State) (n : SlotNum) (f : Filter) : State :=
  { s with slots := s.slots.set n.toNat (some f) }

/-! ## Responses (30_encoding.md R82 to R85) -/

/-- Append a response packet to the response channel. -/
def State.emit (s : State) (r : Response) : State := { s with responses := s.responses ++ [r] }

/-- `respond(OK, ...)`: the response of a command that succeeded (30_encoding.md R83, R84). -/
def respond (o : Op) (sat : Bool) (results : List Word) (s : State) : Host.Outcome State Fault Refusal :=
  .next (s.emit ⟨statusWord o.code sat okCode, results⟩)

/-- TAKING AN ERROR, for an opcode byte: nothing is saved or changed, and the response is the status word alone,
with the code and the echoed opcode (60_exceptions.md R190, R201; 30_encoding.md R83, R85). There is no handler
and no return (R202). -/
def raiseFor (opc : BitVec 8) (e : Err) (s : State) : Host.Outcome State Fault Refusal :=
  .next (s.emit ⟨statusWord opc false (errCode e), []⟩)

/-- `raise <Error>` inside a command (00_scope.md R15). -/
def raise (o : Op) (e : Err) (s : State) : Host.Outcome State Fault Refusal := raiseFor o.code e s

/-! ## The command channel (30_encoding.md R70; 20_memory.md R58) -/

/-- The block has room for the response to one more command; otherwise it holds back from taking the next command
until the host has accepted a response (70_reset_and_hazards.md R226). -/
def State.takesCommand (s : State) : Bool := decide (s.responses.length ≤ s.responseRoom)

/-- The block takes the next word of a command; otherwise the host must wait with it (R226). While reset is asserted it
takes none (R220). -/
def State.takesWord (s : State) : Bool := !s.resetIn && decide (s.commands.length ≤ s.commandRoom)

/-- Take the oldest command packet from the command channel, if there is one and the block may take it. -/
def fetch (s : State) : Option (Packet × State) :=
  match s.commands with
  | [] => none
  | p :: rest => if s.takesCommand then some (p, { s with commands := rest }) else none

/-- The packet whose words are `ws` and then `w`. -/
def packetOf (ws : List Word) (w : Word) : Packet :=
  match ws with
  | [] => ⟨w, []⟩
  | c0 :: rest => ⟨c0, rest ++ [w]⟩

/-- Receive one word of a command packet; a word marked last completes its packet (30_encoding.md R70). -/
def receiveWord (s : State) (w : Word) (last : Bool) : State :=
  if last then { s with incoming := [], commands := s.commands ++ [packetOf s.incoming w] }
  else { s with incoming := s.incoming ++ [w] }

/-- Put a packet where the next step fetches, with room for its response beside those that wait. -/
def pushCommand (s : State) (p : Packet) : State :=
  { s with resetIn := false, commands := p :: s.commands, responseRoom := max s.responseRoom s.responses.length }

/-! ## Reset (70_reset_and_hazards.md R220 to R222) -/

/-- Everything reset discards is gone; the parameters and the reset input itself stay. -/
def State.cleared (s : State) : State :=
  { State.resetWith s.nslots s.maxlgw s.responseRoom s.commandRoom with resetIn := s.resetIn }

end Sys2Proof.Machine
end

