-- ==== Sys2Proof/Machine/Construct.lean ====
section
/-! DEFINITION. FilterCore construction: the FNEW command (41_filter_construct.md R130 to R136). -/

namespace Sys2Proof.Machine

/-- `while W < minWords: W <- 2 W`, at most `fuel` times (R130, R132). -/
def growW : Nat → Nat → Nat → Nat
  | 0, _, W => W
  | fuel + 1, minWords, W => if W < minWords then growW fuel minWords (2 * W) else W

/-- The word count of a new filter: the least power of two at least `max(1, minWords)` (R132). `MAXLGW` doublings
are enough for a `minWords` that has passed the capacity check (R136). -/
def wordCount (maxlgw minWords : Nat) : Nat := growW maxlgw minWords 1

/-- A new filter: all bits zero, count 0 (R134). -/
def newFilter (maxlgw n p : Nat) : Filter :=
  { W := wordCount maxlgw (sizeWords n p)
    probes := BitVec.ofNat 32 (sizeProbes p)
    count := 0#64
    words := [] }

/-- FNEW (R130). -/
def execFnew (fd : SlotNum) (n p : Word) (s : State) : Host.Outcome State Fault Refusal :=
  if slotExists s fd then
    if rateLegal p then
      if sizeWords n.toNat p.toNat > 2 ^ s.maxlgw then raise .fnew .errCapacity s
      else respond .fnew false [] (s.setSlot fd (newFilter s.maxlgw n.toNat p.toNat))
    else raise .fnew .errParam s
  else raise .fnew .errSlot s

end Sys2Proof.Machine
end

