-- ==== Sys2Proof/Machine/HashCore.lean ====
section
/-! DEFINITION. HashCore, the MurmurHash3 x64-128 engine (40_hashcore.md R100 to R115), and the HASH command
(R119). The working registers of 10_state.md R30 are local values (R33, log 6). The order of `C1` and `C2` in
`mixK2`, the `h1` added in the second half of the block update and the places of the tail bytes follow R106, R108
and R109, which the spec itself marks as general knowledge (log 12). -/

namespace Sys2Proof.Machine

/-- `rotl(a, r)` for 1 <= r <= 63 (00_scope.md R11). -/
def rotl (a : Word) (r : Nat) : Word := (a <<< r) ||| (a >>> (64 - r))

/-- The running hashes `H1`, `H2` (10_state.md R30). -/
structure HashRegs where
  h1 : Word
  h2 : Word
deriving DecidableEq, Repr

/-- `MIXK1` (R105). -/
def mixK1 (k : Word) : Word := rotl (k * Config.C1) 31 * Config.C2

/-- `MIXK2` (R106). -/
def mixK2 (k : Word) : Word := rotl (k * Config.C2) 33 * Config.C1

/-- The update of `H1` by a block word (R107); the `H2` added is the old one. -/
def updateH1 (h1 h2 k1 : Word) : Word := (rotl (h1 ^^^ mixK1 k1) 27 + h2) * 5#64 + Config.A1

/-- The update of `H2` by a block word (R108); the `H1` added is the new one. -/
def updateH2 (h1 h2 k2 : Word) : Word := (rotl (h2 ^^^ mixK2 k2) 31 + h1) * 5#64 + Config.A2

/-- One 16-byte block: load (R104), then the two halves in order (R107, R108). -/
def blockUpdate (h : HashRegs) (block : List Byte) : HashRegs :=
  let k1 := le64 (block.take 8)
  let k2 := le64 ((block.drop 8).take 8)
  let h1 := updateH1 h.h1 h.h2 k1
  ⟨h1, updateH2 h1 h.h2 k2⟩

/-- The first `n` blocks of a message, in increasing order (R103). -/
def absorb : Nat → List Byte → HashRegs → HashRegs
  | 0, _, h => h
  | n + 1, msg, h => absorb n (msg.drop 16) (blockUpdate h (msg.take 16))

/-- The tail of at most 15 bytes, laid out like a zero-padded block (R109), mixed once (R110). -/
def tailUpdate (h : HashRegs) (tail : List Byte) : HashRegs :=
  let k1 := le64 (tail.take 8)
  let k2 := le64 (tail.drop 8)
  ⟨h.h1 ^^^ mixK1 k1, h.h2 ^^^ mixK2 k2⟩

/-- `fmix` (R113). -/
def fmix (x : Word) : Word :=
  let x := x ^^^ (x >>> 33)
  let x := x * Config.M1
  let x := x ^^^ (x >>> 33)
  let x := x * Config.M2
  x ^^^ (x >>> 33)

/-- `H1 <- H1 + H2; H2 <- H2 + H1` (R112, R114). -/
def crossAdd (h : HashRegs) : HashRegs :=
  let h1 := h.h1 + h.h2
  ⟨h1, h.h2 + h1⟩

/-- Finalization with the message length (R111 to R114). -/
def finalize (h : HashRegs) (len : Word) : HashRegs :=
  let h := crossAdd ⟨h.h1 ^^^ len, h.h2 ^^^ len⟩
  crossAdd ⟨fmix h.h1, fmix h.h2⟩

/-- `hash(msg) = (h1, h2)` (R100 to R115): seed zero (R101), the blocks, the tail, finalization. -/
def hashMsg (msg : List Byte) : HashRegs :=
  let nblocks := msg.length / 16
  finalize (tailUpdate (absorb nblocks msg ⟨0#64, 0#64⟩) (msg.drop (16 * nblocks))) (BitVec.ofNat 64 msg.length)

/-- HASH (R119): no slot, no error, responds h1 and h2. -/
def execHash (msg : List Byte) (s : State) : Host.Outcome State Fault Refusal :=
  let h := hashMsg msg
  respond .hash false [h.h1, h.h2] s

end Sys2Proof.Machine
end

