-- ==== Sys2Proof/Machine/Probe.lean ====
section
/-! DEFINITION. The probe sequencer and the commands FADD, FTEST and FCOUNT (42_filter_insert_test.md). The
registers of 10_state.md R31 are local values (log 6). -/

namespace Sys2Proof.Machine

/-- `TRUNC = 64 W - 1` (R140). -/
def trunc (W : Nat) : Word := BitVec.ofNat 64 (64 * W - 1)

/-- The positions `N_1 .. N_k` of the probe loop: `P <- P + Q; N <- P & TRUNC` (R141). -/
def probePositions (mask q : Word) : Nat → Word → List Nat
  | 0, _ => []
  | k + 1, p => ((p + q) &&& mask).toNat :: probePositions mask q k (p + q)

/-- The positions of a message in a filter: one hash, the filter's `W` and `probes` (R141, R144). -/
def positions (f : Filter) (msg : List Byte) : List Nat :=
  let h := hashMsg msg
  probePositions (trunc f.W) h.h2 f.probes.toNat h.h1

/-- The probe loop of FADD: a clear bit clears HASALL and is set (R145). -/
def insertLoop : List Nat → Memory → Bool → Memory × Bool
  | [], m, hasAll => (m, hasAll)
  | n :: ns, m, hasAll =>
    if Memory.bit m n then insertLoop ns m hasAll else insertLoop ns (Memory.setBit m n) false

/-- The probe loop of FTEST: every probed bit is 1 (R148). Whether it stops early is unobservable (R149). -/
def testAll (ns : List Nat) (m : Memory) : Bool := ns.all (Memory.bit m)

/-- The filter after an FADD, HASALL and SAT (R145, R146). -/
def addTo (f : Filter) (msg : List Byte) : Filter × Bool × Bool :=
  let r := insertLoop (positions f msg) f.words true
  let c := countAfterAdd r.2 f.count
  ({ f with words := r.1, count := c.1 }, r.2, c.2)

/-- FADD (R145). -/
def execFadd (fd : SlotNum) (msg : List Byte) (s : State) : Host.Outcome State Fault Refusal :=
  if slotExists s fd then
    match s.slot fd with
    | none => raise .fadd .errNofilter s
    | some f =>
      let r := addTo f msg
      respond .fadd r.2.2 [flagWord r.2.1] (s.setSlot fd r.1)
  else raise .fadd .errSlot s

/-- FTEST (R148). -/
def execFtest (fd : SlotNum) (msg : List Byte) (s : State) : Host.Outcome State Fault Refusal :=
  if slotExists s fd then
    match s.slot fd with
    | none => raise .ftest .errNofilter s
    | some f => respond .ftest false [flagWord (testAll (positions f msg) f.words)] s
  else raise .ftest .errSlot s

/-- FCOUNT (R150). -/
def execFcount (fd : SlotNum) (s : State) : Host.Outcome State Fault Refusal :=
  if slotExists s fd then
    match s.slot fd with
    | none => raise .fcount .errNofilter s
    | some f => respond .fcount false [f.count] s
  else raise .fcount .errSlot s

end Sys2Proof.Machine
end

