-- ==== Sys2Proof/Machine/Transfer.lean ====
section
/-! DEFINITION. Transfer of a filter's representation: the FLOAD and FSTORE commands (44_filter_transfer.md). -/

namespace Sys2Proof.Machine

/-- The filter FLOAD's operands describe (R180): the words are stored as they are. -/
def loadedFilter (W k c : Word) (ws : List Word) : Filter :=
  { W := W.toNat
    probes := k.setWidth 32
    count := c
    words := Memory.ofWords 0 ws }

/-- FLOAD (R180, R181): the operands' ranges before the slot's capacity; then the slot is replaced whole (R182). -/
def execFload (fd : SlotNum) (W k c : Word) (ws : List Word) (s : State) : Host.Outcome State Fault Refusal :=
  if slotExists s fd then
    if loadOperandsLegal W k c then
      if W.toNat > 2 ^ s.maxlgw then raise .fload .errCapacity s
      else respond .fload false [] (s.setSlot fd (loadedFilter W k c ws))
    else raise .fload .errParam s
  else raise .fload .errSlot s

/-- The result words of FSTORE: W, probes zero-extended, count, then the words (30_encoding.md R84). -/
def storedWords (f : Filter) : List Word :=
  BitVec.ofNat 64 f.W :: f.probes.setWidth 64 :: f.count :: Memory.dump f.W f.words

/-- FSTORE (R183). -/
def execFstore (fd : SlotNum) (s : State) : Host.Outcome State Fault Refusal :=
  if slotExists s fd then
    match s.slot fd with
    | none => raise .fstore .errNofilter s
    | some f => respond .fstore false (storedWords f) s
  else raise .fstore .errSlot s

end Sys2Proof.Machine
end

