-- ==== Sys2Proof/Machine/Union.lean ====
section
/-! DEFINITION. FilterCore union and cardinality estimate: the FUNION command (43_filter_union.md). The registers
of 10_state.md R32 are local values (log 6). -/

namespace Sys2Proof.Machine

/-- The number of 1 bits of a word (R165; 00_scope.md R13). -/
def popcount (w : Word) : Nat := (List.range 64).countP (fun b => w.getLsbD b)

/-- `X`, the number of 1 bits of an array (R164); an unlisted word has none. -/
def Memory.setBits : Memory → Nat
  | [] => 0
  | (_, w) :: m => popcount w + Memory.setBits m

/-- Union compatibility: equal `W` and equal `probes` (10_state.md R28; R162). -/
def compatible (a b : Filter) : Bool := a.W == b.W && a.probes == b.probes

/-- The count of a union and its SAT: the estimate, or IMAX with SAT when every bit is set (R166, R168). -/
def unionCount (W k x : Nat) : Word × Bool :=
  if x = 64 * W then (IMAX, true) else (BitVec.ofNat 64 (est (64 * W) k x), false)

/-- The union of two compatible filters and its SAT (R163 to R168); the operands' counts do not enter (R169). -/
def unionOf (a b : Filter) : Filter × Bool :=
  let words := Memory.orInto a.words b.words
  let c := unionCount a.W a.probes.toNat (Memory.setBits words)
  ({ W := a.W, probes := a.probes, count := c.1, words := words }, c.2)

/-- FUNION (R160): both sources VALID, the destination neither source, the sources compatible; then the merge. -/
def execFunion (fd fa fb : SlotNum) (s : State) : Host.Outcome State Fault Refusal :=
  if slotExists s fd && slotExists s fa && slotExists s fb then
    match s.slot fa, s.slot fb with
    | some a, some b =>
      if fd == fa || fd == fb then raise .funion .errAlias s
      else if compatible a b then
        let r := unionOf a b
        respond .funion r.2 [] (s.setSlot fd r.1)
      else raise .funion .errIncompat s
    | some _, none => raise .funion .errNofilter s
    | none, _ => raise .funion .errNofilter s
  else raise .funion .errSlot s

end Sys2Proof.Machine
end

