-- ==== Sys2Proof/Machine/Dispatch.lean ====
section
/-! DEFINITION. The meaning of each command of spec/opcode_table.json, one arm each. -/

namespace Sys2Proof.Machine

def exec (i : Instr) (s : State) : Host.Outcome State Fault Refusal :=
  match i with
  | .hash msg => Sys2Proof.Machine.execHash msg s
  | .fnew fd n p => Sys2Proof.Machine.execFnew fd n p s
  | .fadd fd msg => Sys2Proof.Machine.execFadd fd msg s
  | .ftest fd msg => Sys2Proof.Machine.execFtest fd msg s
  | .fcount fd => Sys2Proof.Machine.execFcount fd s
  | .funion fd fa fb => Sys2Proof.Machine.execFunion fd fa fb s
  | .fload fd W k c ws => Sys2Proof.Machine.execFload fd W k c ws s
  | .fstore fd => Sys2Proof.Machine.execFstore fd s

end Sys2Proof.Machine
end

