-- ==== Sys2Proof/Machine/Packet.lean ====
section
/-! DEFINITION. Executing one command packet: decoding, then the command's meaning or its decoding error
(30_encoding.md R79, R82). -/

namespace Sys2Proof.Machine

/-- The outcome of a packet, taken from the command channel, in state `s`. -/
def execPacket (p : Packet) (s : State) : Host.Outcome State Fault Refusal :=
  match decode p with
  | .ok i => exec i s
  | .error e => raiseFor p.opc e s

end Sys2Proof.Machine
end

