-- ==== Sys2Proof/Machine/Step.lean ====
section
/-! DEFINITION. One step: one command packet, decoded, executed and answered (20_memory.md R58; 30_encoding.md R79,
R82). With no packet waiting the block is idle and holds its slots (60_exceptions.md section 7; log 7), and so it does
while the host leaves too many responses waiting (70_reset_and_hazards.md R226; log 1); while reset is asserted it
accepts no command and sends no response (R220). -/

namespace Sys2Proof.Machine

def step (s : State) : Host.Outcome State Fault Refusal :=
  if s.resetIn then .next s.cleared
  else
    match fetch s with
    | none => .next s
    | some (p, s') => execPacket p s'

/-- The state with an instruction of the opcode table as the next packet of the command channel (the host's fixed
name; log 9). -/
def State.withFetchWord (s : State) (nbits w : Nat) : State := pushCommand s (tablePacket nbits w)

end Sys2Proof.Machine
end

