-- ==== Sys2Proof/Machine/HostPort.lean ====
section
/-! DEFINITION. What the host can do to the block, and all it can do (70_reset_and_hazards.md R220, R222, R225 to
R228): send a word of a command packet, take a response, assert and release reset. -/

namespace Sys2Proof.Machine

/-- An action of the host, between two steps. -/
inductive HostEvent where
  /-- Deliver the next word of a command packet, marked when it is the packet's last (30_encoding.md R70). -/
  | sendWord (w : Word) (last : Bool)
  /-- Accept the oldest response packet (30_encoding.md R82). -/
  | takeResponse
  /-- Assert the reset input (R220). -/
  | assertReset
  /-- Release the reset input (R220). -/
  | releaseReset
deriving DecidableEq, Repr

/-- The response packet offered to the host. -/
def State.offered (s : State) : Option Response := s.responses.head?

/-- The state after an action of the host. A word the block does not take changes nothing, and the host still has it
(R220, R226; log 1, log 8). Asserting reset discards every packet, part of a packet and response the block holds and
empties every slot (R221, R222). -/
def hostEvent (e : HostEvent) (s : State) : State :=
  match e with
  | .sendWord w last => if s.takesWord then receiveWord s w last else s
  | .takeResponse => { s with responses := s.responses.tail }
  | .assertReset => { s.cleared with resetIn := true }
  | .releaseReset => { s with resetIn := false }

/-- The actions that deliver one whole packet: its words in order, the last one marked (R225). -/
def sendPacket (p : Packet) : List HostEvent :=
  let ws := p.header :: p.body
  ws.dropLast.map (fun w => .sendWord w false) ++ [.sendWord (ws.getLastD 0#64) true]

end Sys2Proof.Machine
end

