-- ==== Sys2Proof/Safety.lean ====
section
/-! DEFINITION. The invariant of the machine (10_state.md R26) and what a run is: host actions and steps in any
order. A run is safe when it never stops and every state it reaches meets the invariant
(70_reset_and_hazards.md R227). -/

namespace Sys2Proof.Machine

/-- What 10_state.md R26 says of the filter in a VALID slot, for a block with the given `MAXLGW`, and the canonical
form of its word array (log 4). -/
structure Filter.Legal (maxlgw : Nat) (f : Filter) : Prop where
  /-- R26 (a): W is a power of two, at least 1 and at most 2^MAXLGW. -/
  pow2   : ∃ j, j ≤ maxlgw ∧ f.W = 2 ^ j
  /-- R26 (b): probes is at least 1. -/
  probes : f.probes ≠ 0#32
  /-- R26 (c): the count is in 0 to IMAX. -/
  count  : f.count.toNat ≤ IMAX.toNat
  /-- The word array is in canonical form and has no word at or beyond W. -/
  words  : Memory.wf f.W f.words = true

/-- The invariant of the machine: legal parameters, and every VALID slot legal. -/
structure State.Inv (s : State) : Prop where
  nslots : Config.NslotsLegal s.nslots
  maxlgw : Config.MaxlgwLegal s.maxlgw
  slots  : ∀ f, some f ∈ s.slots → f.Legal s.maxlgw

/-! ## What a command reads and writes (the table of 10_state.md R29) -/

/-- The slot whose filter a command replaces whole when it succeeds: the destination of FNEW, FUNION and FLOAD. -/
def replacedSlot : Instr → Option SlotNum
  | .hash _ => none
  | .fnew fd _ _ => some fd
  | .fadd _ _ => none
  | .ftest _ _ => none
  | .fcount _ => none
  | .funion fd _ _ => some fd
  | .fload fd _ _ _ _ => some fd
  | .fstore _ => none

/-- The slot a command may write: the replaced slot, or the target of FADD. -/
def writtenSlot : Instr → Option SlotNum
  | .hash _ => none
  | .fnew fd _ _ => some fd
  | .fadd fd _ => some fd
  | .ftest _ _ => none
  | .fcount _ => none
  | .funion fd _ _ => some fd
  | .fload fd _ _ _ _ => some fd
  | .fstore _ => none

/-- The slots whose filters a command reads. -/
def readSlots : Instr → List SlotNum
  | .hash _ => []
  | .fnew _ _ _ => []
  | .fadd fd _ => [fd]
  | .ftest fd _ => [fd]
  | .fcount fd => [fd]
  | .funion _ fa fb => [fa, fb]
  | .fload _ _ _ _ _ => []
  | .fstore fd => [fd]

/-- The slot fields a command uses (30_encoding.md R75, column "slots used"). -/
def usedSlots : Instr → List SlotNum
  | .hash _ => []
  | .fnew fd _ _ => [fd]
  | .fadd fd _ => [fd]
  | .ftest fd _ => [fd]
  | .fcount fd => [fd]
  | .funion fd fa fb => [fd, fa, fb]
  | .fload fd _ _ _ _ => [fd]
  | .fstore fd => [fd]

/-- The errors a command can end in after decoding, in the order of their codes (60_exceptions.md R200). -/
def possibleErrors : Op → List Err
  | .hash => []
  | .fnew => [.errSlot, .errParam, .errCapacity]
  | .fadd => [.errSlot, .errNofilter]
  | .ftest => [.errSlot, .errNofilter]
  | .fcount => [.errSlot, .errNofilter]
  | .funion => [.errSlot, .errNofilter, .errAlias, .errIncompat]
  | .fload => [.errSlot, .errParam, .errCapacity]
  | .fstore => [.errSlot, .errNofilter]

/-! ## Runs -/

/-- Commands executed one after the other, as if each had been fetched and decoded. -/
def execAll : List Instr → State → Host.Outcome State Fault Refusal
  | [], s => .next s
  | i :: is, s =>
    match exec i s with
    | .next t => execAll is t
    | .fault r => .fault r
    | .refused r => .refused r

/-- Packets executed one after the other, with no waits in between. -/
def answerAll : List Packet → State → Host.Outcome State Fault Refusal
  | [], s => .next s
  | p :: ps, s =>
    match execPacket p s with
    | .next t => answerAll ps t
    | .fault r => .fault r
    | .refused r => .refused r

/-- The state once every packet that waits has been answered, with no waits in between
(70_reset_and_hazards.md R226). -/
def settled (s : State) : Host.Outcome State Fault Refusal := answerAll s.commands { s with commands := [] }

/-- One event of a run: an action of the host, or a step of the block. -/
inductive Event where
  | host (e : HostEvent)
  | step
deriving DecidableEq, Repr

/-- The outcome of one event. -/
def react (e : Event) (s : State) : Host.Outcome State Fault Refusal :=
  match e with
  | .host h => .next (hostEvent h s)
  | .step => step s

/-- The outcome of a run, stopping at the first fault or refusal. -/
def runEvents : List Event → State → Host.Outcome State Fault Refusal
  | [], s => .next s
  | e :: es, s =>
    match react e s with
    | .next s' => runEvents es s'
    | .fault r => .fault r
    | .refused r => .refused r

/-- The responses handed to the host during a run, oldest first. -/
def handedOver : List Event → State → List Response
  | [], _ => []
  | e :: es, s =>
    let got := if e = .host .takeResponse then s.offered.toList else []
    match react e s with
    | .next s' => got ++ handedOver es s'
    | .fault _ => got
    | .refused _ => got

/-- A safe run: it never stops and ends in a state that meets the invariant. -/
def SafeRun (es : List Event) (s : State) : Prop := ∃ t, runEvents es s = .next t ∧ t.Inv

end Sys2Proof.Machine
end

