-- ==== Sys2Proof/Certificates/Slice0/Obligations.lean ====
section
/-! DEFINITION. The statements for the provers. The first part holds the words they are written in: numbers and
plain formulas of the spec, kept apart from the functions of the model that the statements speak about. -/

namespace Sys2Proof.Claims

open Sys2Proof.Machine

/-! ## Words of the statements -/

/-- The opcode byte of a command as a number (30_encoding.md R75). -/
def opcodeNumber : Instr → Nat
  | .hash _ => 0x01
  | .fnew _ _ _ => 0x10
  | .fadd _ _ => 0x11
  | .ftest _ _ => 0x12
  | .fcount _ => 0x13
  | .funion _ _ _ => 0x14
  | .fload _ _ _ _ _ => 0x18
  | .fstore _ => 0x19

/-- The status word with opcode byte `opc`, flag `sat` and code `code`, as a number (30_encoding.md R83). -/
def status (opc : Nat) (sat : Bool) (code : Nat) : Word :=
  BitVec.ofNat 64 (opc * 2 ^ 56 + (if sat then 2 ^ 8 else 0) + code)

/-- `s` with one response more and nothing else changed. -/
def replied (s : State) (r : Response) : State := { s with responses := s.responses ++ [r] }

/-- `s` with the error response of a command and nothing else changed (60_exceptions.md R190). -/
def failed (s : State) (i : Instr) (code : Nat) : State := replied s ⟨status (opcodeNumber i) false code, []⟩

/-- The frame of a command that writes slot `fd`: one response more, and outside slot `fd` nothing else changed. -/
structure OnlySlotChanged (fd : SlotNum) (s t : State) (r : Response) : Prop where
  maxlgw    : t.maxlgw = s.maxlgw
  responseRoom : t.responseRoom = s.responseRoom
  commandRoom : t.commandRoom = s.commandRoom
  nslots    : t.nslots = s.nslots
  resetIn   : t.resetIn = s.resetIn
  incoming  : t.incoming = s.incoming
  commands  : t.commands = s.commands
  responses : t.responses = s.responses ++ [r]
  slots     : ∀ j, j ≠ fd.toNat → t.slots[j]? = s.slots[j]?

/-- Slot `n` exists. -/
def SlotPresent (s : State) (n : SlotNum) : Prop := n.toNat < s.nslots

/-- No more responses wait for the host than the block goes on with (70_reset_and_hazards.md R226). -/
def HasRoom (s : State) : Prop := s.responses.length ≤ s.responseRoom

/-- The host accepts up to `k` responses. -/
def taking (k : Nat) (s : State) : State := (hostEvent .takeResponse)^[k] s

/-- `W` is a power of two. -/
def PowerOfTwo (W : Nat) : Prop := ∃ j, W = 2 ^ j

/-- 0 or 1 as a word (30_encoding.md R84). -/
def zeroOrOne (b : Bool) : Word := if b then 1#64 else 0#64

/-- The number of 1 bits of a word, as a sum over its bits (00_scope.md R13). -/
def onesOf (w : Word) : Nat := ∑ b ∈ Finset.range 64, (w.getLsbD b).toNat

/-- The number of 1 bits of the words 0 to W - 1 of an array (43_filter_union.md R164). -/
def onesIn (W : Nat) (m : Memory) : Nat := ∑ J ∈ Finset.range W, onesOf (Memory.read m J)

/-- Every probed bit of the message is 1 in the filter. -/
def allSet (f : Filter) (msg : List Byte) : Bool := (positions f msg).all fun n => Memory.bit f.words n

/-! ## Packets as numbers -/

/-- Header bits 63:56, as a number. -/
def opcOf (p : Packet) : Nat := p.header.toNat / 2 ^ 56

/-- The eight opcode bytes. -/
def knownOpcodes : List Nat := [0x01, 0x10, 0x11, 0x12, 0x13, 0x14, 0x18, 0x19]

/-- What makes a packet ERR_ILLEGAL (60_exceptions.md R192): an unknown opcode, RSV not zero, or a slot field the
command does not use not zero. FD is bits 55:52, FA and FB are bits 51:44. -/
def IllegalHeader (p : Packet) : Prop :=
  opcOf p ∉ knownOpcodes ∨ p.header.toNat % 2 ^ 44 ≠ 0 ∨
    (opcOf p = 0x01 ∧ p.header.toNat / 2 ^ 52 % 16 ≠ 0) ∨
    (opcOf p ≠ 0x14 ∧ p.header.toNat / 2 ^ 44 % 256 ≠ 0)

/-- The word after the header, 0 where there is none. -/
def wordOne (p : Packet) : Nat := (p.body.getD 0 0#64).toNat

/-- The number of words of a packet. -/
def wordsOf (p : Packet) : Nat := 1 + p.body.length

/-- What makes the length of a packet with a known opcode wrong (60_exceptions.md R193). -/
def WrongLength (p : Packet) : Prop :=
  (opcOf p ∈ [0x13, 0x14, 0x19] ∧ wordsOf p ≠ 1) ∨
    (opcOf p = 0x10 ∧ wordsOf p ≠ 3) ∨
    (opcOf p ∈ [0x01, 0x11, 0x12] ∧ (wordsOf p < 2 ∨ wordsOf p ≠ 2 + (wordOne p + 7) / 8)) ∨
    (opcOf p = 0x18 ∧ (wordsOf p < 4 ∨ wordsOf p ≠ 4 + wordOne p))

/-- Byte `b` of the payload of a format M packet: byte `8j + t` is bits 8t+7:8t of `c[2+j]` (30_encoding.md R73). -/
def payloadByte (p : Packet) (b : Nat) : Nat := (p.body.getD (1 + b / 8) 0#64).toNat / 2 ^ (8 * (b % 8)) % 256

/-- Equal word for word except in the pad bytes of a format M packet (30_encoding.md R74, R88). -/
def EqualExceptPad (p q : Packet) : Prop :=
  p.header = q.header ∧ p.body.length = q.body.length ∧
    if opcOf p ∈ [0x01, 0x11, 0x12] then
      wordOne p = wordOne q ∧ ∀ b, b < wordOne p → payloadByte p b = payloadByte q b
    else p.body = q.body

/-- The message operand of a command. -/
def messageOperand : Instr → Option (List Byte)
  | .hash msg => some msg
  | .fnew _ _ _ => none
  | .fadd _ msg => some msg
  | .ftest _ msg => some msg
  | .fcount _ => none
  | .funion _ _ _ => none
  | .fload _ _ _ _ _ => none
  | .fstore _ => none

/-- The codes a command can answer with, by its opcode byte (60_exceptions.md R191, R200). -/
def codesOf (opc : Nat) : List Nat :=
  if opc = 0x01 then [0, 1, 2]
  else if opc = 0x10 then [0, 1, 2, 3, 4, 5]
  else if opc = 0x11 then [0, 1, 2, 3, 6]
  else if opc = 0x12 then [0, 1, 2, 3, 6]
  else if opc = 0x13 then [0, 1, 2, 3, 6]
  else if opc = 0x14 then [0, 1, 2, 3, 6, 7, 8]
  else if opc = 0x18 then [0, 1, 2, 3, 4, 5]
  else if opc = 0x19 then [0, 1, 2, 3, 6]
  else [1]

/-! ## The hash by index, from 40_hashcore.md section 8 -/

/-- Message byte `i`, zero beyond the end, as a number. -/
def byteAt (msg : List Byte) (i : Nat) : Nat := (msg.getD i 0#8).toNat

/-- `le64` of the eight bytes from index `i` on (00_scope.md R13), as the sum the spec writes. -/
def le64At (msg : List Byte) (i : Nat) : Word :=
  BitVec.ofNat 64 (∑ t ∈ Finset.range 8, byteAt msg (i + t) * 2 ^ (8 * t))

/-- One turn of the block loop of section 8. -/
def blockTurn (msg : List Byte) (h : Word × Word) (i : Nat) : Word × Word :=
  let k1 := ((le64At msg (16 * i) * 0x87c37b91114253d5#64).rotateLeft 31) * 0x4cf5ad432745937f#64
  let h1 := (((h.1 ^^^ k1).rotateLeft 27) + h.2) * 5#64 + 0x52dce729#64
  let k2 := ((le64At msg (16 * i + 8) * 0x4cf5ad432745937f#64).rotateLeft 33) * 0x87c37b91114253d5#64
  let h2 := (((h.2 ^^^ k2).rotateLeft 31) + h1) * 5#64 + 0x38495ab5#64
  (h1, h2)

/-- The finalizer of section 8. -/
def fmixOf (x : Word) : Word :=
  let x := (x ^^^ (x >>> 33)) * 0xff51afd7ed558ccd#64
  let x := (x ^^^ (x >>> 33)) * 0xc4ceb9fe1a85ec53#64
  x ^^^ (x >>> 33)

/-- The pseudocode of 40_hashcore.md section 8. -/
def hashByIndex (msg : List Byte) : Word × Word :=
  let L := msg.length
  let h := (List.range (L / 16)).foldl (blockTurn msg) (0#64, 0#64)
  let k2 := ((le64At msg (16 * (L / 16) + 8) * 0x4cf5ad432745937f#64).rotateLeft 33) * 0x87c37b91114253d5#64
  let h2 := h.2 ^^^ k2
  let k1 := ((le64At msg (16 * (L / 16)) * 0x87c37b91114253d5#64).rotateLeft 31) * 0x4cf5ad432745937f#64
  let h1 := h.1 ^^^ k1
  let h1 := h1 ^^^ BitVec.ofNat 64 L
  let h2 := h2 ^^^ BitVec.ofNat 64 L
  let h1 := h1 + h2
  let h2 := h2 + h1
  let h1 := fmixOf h1
  let h2 := fmixOf h2
  let h1 := h1 + h2
  let h2 := h2 + h1
  (h1, h2)

end Sys2Proof.Claims

open Sys2Proof Sys2Proof.Machine Sys2Proof.Claims

/-! ## Reset, steps and the channels -/

/-- R221. A reset, asserted and released in any state, and the state after reset: every slot EMPTY, both channels
empty; the parameters stay. -/
def Obligations.ResetEmptiesSlotsAndChannels : Prop :=
  (∀ s : State,
    let t := hostEvent .releaseReset (hostEvent .assertReset s)
    (∀ n, t.slot n = none) ∧ t.incoming = [] ∧ t.commands = [] ∧ t.responses = [] ∧ t.resetIn = false ∧
      t.nslots = s.nslots ∧ t.maxlgw = s.maxlgw ∧ t.responseRoom = s.responseRoom ∧
      t.commandRoom = s.commandRoom) ∧
  (∀ n, State.reset.slot n = none) ∧ State.reset.incoming = [] ∧ State.reset.commands = [] ∧
    State.reset.responses = []

/-- The invariant holds at reset (with the default parameters, the model's choice of log 3). -/
def Obligations.ResetMeetsInvariant : Prop := State.reset.Inv

/-- R220: while reset is asserted the block accepts no word and takes no command, and its next step leaves nothing
to send and every slot EMPTY; a release then gives the reset state. That a word offered meanwhile leaves no trace is the
model's choice (log 8). -/
def Obligations.AssertedResetHoldsTheBlock : Prop :=
  ∀ s : State, s.resetIn = true →
    (∀ w last, hostEvent (.sendWord w last) s = s) ∧
    ∃ t, step s = .next t ∧ t.resetIn = true ∧ t.responses = [] ∧ t.commands = [] ∧ t.incoming = [] ∧
      (∀ n, t.slot n = none) ∧ hostEvent .releaseReset t =
        State.resetWith s.nslots s.maxlgw s.responseRoom s.commandRoom

/-- 95_test_vectors.md section 2: one packet of each command, written out, decodes to the command it stands for. -/
def Obligations.SamplePacketsDecode : Prop :=
  decode ⟨0x0100000000000000#64, [3#64, 0x0000000000636261#64]⟩ = .ok (.hash [0x61#8, 0x62#8, 0x63#8]) ∧
  decode ⟨0x1000000000000000#64, [0x3e8#64, 0x64#64]⟩ = .ok (.fnew 0#4 1000#64 100#64) ∧
  decode ⟨0x1110000000000000#64, [1#64, 0x31#64]⟩ = .ok (.fadd 1#4 [0x31#8]) ∧
  decode ⟨0x1220000000000000#64, [2#64, 0x3833#64]⟩ = .ok (.ftest 2#4 [0x33#8, 0x38#8]) ∧
  decode ⟨0x1320000000000000#64, []⟩ = .ok (.fcount 2#4) ∧
  decode ⟨0x1431200000000000#64, []⟩ = .ok (.funion 3#4 1#4 2#4) ∧
  decode ⟨0x1830000000000000#64, [2#64, 3#64, 5#64, 0x0123456789abcdef#64, 0xfedcba9876543210#64]⟩ =
    .ok (.fload 3#4 2#64 3#64 5#64 [0x0123456789abcdef#64, 0xfedcba9876543210#64]) ∧
  decode ⟨0x1930000000000000#64, []⟩ = .ok (.fstore 3#4)

/-- A step runs the decoded command: the oldest packet leaves the command channel and `exec` runs what it decodes
to. With more responses waiting than the block has room for, it holds its state (R226; the room is log 1). -/
def Obligations.StepRunsTheDecodedCommand : Prop :=
  ∀ (s : State) (p : Packet) (rest : List Packet) (i : Instr),
    s.resetIn = false → s.commands = p :: rest → decode p = .ok i →
    i.wellFormed = true ∧ (HasRoom s → step s = exec i { s with commands := rest }) ∧
      (¬ HasRoom s → step s = .next s)

/-- With no packet waiting the block holds its state (log 7). -/
def Obligations.IdleBlockHoldsItsState : Prop :=
  ∀ s : State, s.resetIn = false → s.commands = [] → step s = .next s

/-- R82. Every packet, legal or not, is answered by exactly one response, in the order of the commands: at once, or,
when `k` responses too many are waiting (R226), once the host has accepted `k` of them. -/
def Obligations.EveryPacketGetsOneResponse : Prop :=
  ∀ (s : State) (p : Packet) (rest : List Packet) (k : Nat), s.resetIn = false → s.commands = p :: rest →
    s.responses.length ≤ s.responseRoom + k →
    ∃ t r, step (taking k s) = .next t ∧ t.commands = rest ∧ t.responses = s.responses.drop k ++ [r]

/-- R85, and of R83 and R191: the status word of the response to any packet: the opcode is echoed, bits 55:9 are zero,
SAT only with code OK and only for FADD and FUNION, the code one of those the command can answer with, and no result
word beside an error code. -/
def Obligations.ResponseStatusIsLegal : Prop :=
  ∀ (s t : State) (p : Packet) (rest : List Packet), s.resetIn = false → s.commands = p :: rest → HasRoom s →
    step s = .next t →
    ∃ r, t.responses = s.responses ++ [r] ∧ r.status.toNat / 2 ^ 56 = opcOf p ∧
      r.status.toNat / 2 ^ 9 % 2 ^ 47 = 0 ∧ r.status.toNat % 256 ∈ codesOf (opcOf p) ∧
      (r.status.toNat / 2 ^ 8 % 2 = 1 → r.status.toNat % 256 = 0 ∧ opcOf p ∈ [0x11, 0x14]) ∧
      (r.status.toNat % 256 ≠ 0 → r.results = [])

/-- Of 70_reset_and_hazards.md R226: when the host takes a response, or sends a word the block takes, before a step or
after it makes no difference. The channels are the model's (log 1, log 13). -/
def Obligations.HostTimingChangesNoResult : Prop :=
  ∀ s t : State, s.resetIn = false → step s = .next t →
    (s.responses ≠ [] → HasRoom s → step (hostEvent .takeResponse s) = .next (hostEvent .takeResponse t)) ∧
    (s.commands ≠ [] → s.commands.length ≤ s.commandRoom →
      ∀ w last, step (hostEvent (.sendWord w last) s) = .next (hostEvent (.sendWord w last) t))

/-- Of 70_reset_and_hazards.md R226. A host that leaves too many responses waiting stops the block, which holds its
state; once it has accepted `k` of them, enough to make room, the next command runs, from the state in which the block
stopped. The block may make the host wait with a word, and the word changes nothing then. Neither wait changes any
result: for every command that waits there is one response more in the end, `rs`, and whatever the host accepts and the
block executes meanwhile, in whatever order, the responses handed over and those still to come are the same, and so are
the slots; a word the block takes, and the packet it completes, come after all of them; and with any other room in the
channels the results are the same. The amounts of room, and with them when the block stops and when it makes the host
wait, are the model's choice (log 1). -/
def Obligations.WaitingChangesNoResult : Prop :=
  ∀ s : State, s.resetIn = false →
    (¬ HasRoom s → step s = .next s) ∧
    (∀ p rest k, s.commands = p :: rest → s.responses.length ≤ s.responseRoom + k →
      step (taking k s) = execPacket p { s with commands := rest, responses := s.responses.drop k }) ∧
    (s.commandRoom < s.commands.length → ∀ w last, hostEvent (.sendWord w last) s = s) ∧
    ∃ u rs, settled s = .next u ∧ u.responses = s.responses ++ rs ∧ rs.length = s.commands.length ∧
      (∀ es : List Event, (∀ e ∈ es, e = .step ∨ e = .host .takeResponse) →
        ∃ t rest, runEvents es s = .next t ∧ handedOver es s ++ rest = u.responses ∧
          settled t = .next { u with responses := rest }) ∧
      (s.commands.length ≤ s.commandRoom → ∀ w,
        settled (hostEvent (.sendWord w false) s) = .next { u with incoming := s.incoming ++ [w] } ∧
        settled (hostEvent (.sendWord w true) s) = execPacket (packetOf s.incoming w) { u with incoming := [] }) ∧
      ∀ r c, settled { s with responseRoom := r, commandRoom := c } =
        .next { u with responseRoom := r, commandRoom := c }

/-- The words of a packet, sent in order with the last one marked, arrive as that packet at the end of the command
channel (30_encoding.md R70), and nothing else changes, when the block takes the first of them (R226). How the words
are collected is the model's choice (log 13). -/
def Obligations.SentPacketArrivesWhole : Prop :=
  ∀ (s : State) (p : Packet), s.resetIn = false → s.incoming = [] → s.commands.length ≤ s.commandRoom →
    runEvents ((sendPacket p).map .host) s = .next { s with commands := s.commands ++ [p] }

/-! ## Decoding and encoding -/

/-- Decoding an encoded well-formed instruction gives it back, every operand at every value. -/
def Obligations.DecodeInvertsEncode : Prop :=
  ∀ i : Instr, i.wellFormed = true → decode (encode i) = .ok i

/-- R71. The header of an encoded instruction, as a number: OPC, FD, FA and FB at their places, all else zero. -/
def Obligations.EncodedHeaderHoldsTheFields : Prop :=
  ∀ i : Instr, (encode i).header.toNat = opcodeNumber i * 2 ^ 56 +
    match i with
    | .hash _ => 0
    | .fnew fd _ _ => fd.toNat * 2 ^ 52
    | .fadd fd _ => fd.toNat * 2 ^ 52
    | .ftest fd _ => fd.toNat * 2 ^ 52
    | .fcount fd => fd.toNat * 2 ^ 52
    | .funion fd fa fb => fd.toNat * 2 ^ 52 + fa.toNat * 2 ^ 48 + fb.toNat * 2 ^ 44
    | .fload fd _ _ _ _ => fd.toNat * 2 ^ 52
    | .fstore fd => fd.toNat * 2 ^ 52

/-- R192. Exactly the packets with an illegal header decode to ERR_ILLEGAL, whatever their length; the block answers
with the offending opcode and code 0x01 and changes nothing else. -/
def Obligations.IllegalHeadersAreRefused : Prop :=
  ∀ p : Packet, (decode p = .error .errIllegal ↔ IllegalHeader p) ∧
    ∀ (s : State) (rest : List Packet), s.resetIn = false → s.commands = p :: rest → HasRoom s →
      IllegalHeader p → step s = .next (replied { s with commands := rest } ⟨status (opcOf p) false 0x01, []⟩)

/-- R193. Exactly the packets with a legal header and a wrong length decode to ERR_FORMAT; the block answers with code
0x02 and changes nothing else. -/
def Obligations.WrongLengthsAreRefused : Prop :=
  ∀ p : Packet, (decode p = .error .errFormat ↔ ¬ IllegalHeader p ∧ WrongLength p) ∧
    ∀ (s : State) (rest : List Packet), s.resetIn = false → s.commands = p :: rest → HasRoom s →
      ¬ IllegalHeader p → WrongLength p →
      step s = .next (replied { s with commands := rest } ⟨status (opcOf p) false 0x02, []⟩)

/-- R88. Two legal packets denote the same command with the same operands if and only if they are equal word for word
except in the pad bytes. -/
def Obligations.DecodingIsUniqueUpToPad : Prop :=
  ∀ (p q : Packet) (i j : Instr), decode p = .ok i → decode q = .ok j → (i = j ↔ EqualExceptPad p q)

/-- R73. The message of a decoded command: `c[1]` is its length, and byte `8j + t` is bits 8t+7:8t of `c[2+j]`. -/
def Obligations.MessageBytesComeFromThePayload : Prop :=
  ∀ (p : Packet) (i : Instr) (msg : List Byte), decode p = .ok i → messageOperand i = some msg →
    msg.length = wordOne p ∧ wordsOf p = 2 + (msg.length + 7) / 8 ∧
      ∀ b, b < msg.length → (msg.getD b 0#8).toNat = payloadByte p b

/-! ## HASH -/

/-- The hash is the function of the pseudocode of 40_hashcore.md section 8. Parts of that pseudocode the spec marks as
general knowledge (log 12). -/
def Obligations.HashIsThePseudocode : Prop :=
  ∀ msg : List Byte, ((hashMsg msg).h1, (hashMsg msg).h2) = hashByIndex msg

/-- HASH completes in every state: it responds h1 and h2 and changes nothing else. -/
def Obligations.HashRespondsTheHash : Prop :=
  ∀ (msg : List Byte) (s : State),
    exec (.hash msg) s = .next (replied s ⟨status 0x01 false 0, [(hashMsg msg).h1, (hashMsg msg).h2]⟩)

/-! ## FNEW -/

/-- Of 41_filter_construct.md R131: SIZE_WORDS is the floor of the exact real product, on every operand, and the spec's
example: n = 428 and p = 100 make 64 words. The two ends the model computes it from enclose that floor at every
precision, and differ by at most one on the operands FNEW can have; the two ends are the model's own (log 5). -/
def Obligations.SizeWordsIsExact : Prop :=
  (∀ n p : Nat, 2 ≤ p →
    let exact : ℤ := ⌊(325 / 10000 : ℝ) * Real.log p * n⌋
    (sizeWords n p : ℤ) = exact ∧
    ∀ d, (lnFloorLo (13 * n) 400 p 1 d : ℤ) ≤ exact ∧ exact ≤ lnFloorHi (13 * n) 400 p 1 d ∧
      (n < 2 ^ 64 → p < 2 ^ 64 → lnFloorHi (13 * n) 400 p 1 d ≤ lnFloorLo (13 * n) 400 p 1 d + 1)) ∧
  sizeWords 428 100 = 64 ∧ (newFilter 16 428 100).W = 64

/-- R133. SIZE_PROBES is exact on every operand FNEW can have, at least 1 and at most 63, with the spec's first
values. -/
def Obligations.SizeProbesIsExact : Prop :=
  (∀ p : Word, 2 ≤ p.toNat →
    (sizeProbes p.toNat : ℤ) = ⌊(14 / 10 : ℝ) * Real.log p.toNat⌋ + 1 ∧ 1 ≤ sizeProbes p.toNat ∧
      sizeProbes p.toNat ≤ 63) ∧
  ∀ lo hi k, (lo, hi, k) ∈ [(2, 2, 1), (3, 4, 2), (5, 8, 3), (9, 17, 4), (18, 35, 5), (36, 72, 6), (73, 148, 7),
      (149, 303, 8), (304, 619, 9), (620, 1265, 10)] →
    ∀ p, lo ≤ p → p ≤ hi → sizeProbes p = k

/-- FNEW completes when its slot exists, p is at least 2 and the minimum word count fits: the slot holds a filter of
the least power of two of words at least max(1, minWords), SIZE_PROBES(p) probes, count 0 and all words zero, whatever
it held before; nothing else changes. -/
def Obligations.FnewMakesAnEmptyFilter : Prop :=
  ∀ (fd : SlotNum) (n p : Word) (s : State), SlotPresent s fd → 2 ≤ p.toNat →
    sizeWords n.toNat p.toNat ≤ 2 ^ s.maxlgw →
    ∃ t f, exec (.fnew fd n p) s = .next t ∧ OnlySlotChanged fd s t ⟨status 0x10 false 0, []⟩ ∧
      t.slot fd = some f ∧
      (∃ j, f.W = 2 ^ j ∧ max 1 (sizeWords n.toNat p.toNat) ≤ 2 ^ j ∧
        ∀ i, max 1 (sizeWords n.toNat p.toNat) ≤ 2 ^ i → j ≤ i) ∧
      f.probes.toNat = sizeProbes p.toNat ∧ f.count = 0#64 ∧ ∀ J, Memory.read f.words J = 0#64

/-- R136. FNEW with p below 2 answers ERR_PARAM; with p at least 2 and a minimum word count above 2^MAXLGW,
ERR_CAPACITY; and otherwise the rounded W is at most 2^MAXLGW. -/
def Obligations.FnewRefusesBadSizes : Prop :=
  ∀ (fd : SlotNum) (n p : Word) (s : State), SlotPresent s fd →
    (p.toNat < 2 → exec (.fnew fd n p) s = .next (failed s (.fnew fd n p) 0x04)) ∧
    (2 ≤ p.toNat → 2 ^ s.maxlgw < sizeWords n.toNat p.toNat →
      exec (.fnew fd n p) s = .next (failed s (.fnew fd n p) 0x05)) ∧
    (2 ≤ p.toNat → sizeWords n.toNat p.toNat ≤ 2 ^ s.maxlgw →
      ∃ t f, exec (.fnew fd n p) s = .next t ∧ t.slot fd = some f ∧ f.W ≤ 2 ^ s.maxlgw)

/-! ## FADD, FTEST, FCOUNT -/

/-- R141. The probe positions of a message in a filter: (h1 + I * h2) mod m for I from 1 to k. -/
def Obligations.ProbePositionsFollowTheRecurrence : Prop :=
  ∀ (f : Filter) (maxlgw : Nat) (msg : List Byte), f.Legal maxlgw → Config.MaxlgwLegal maxlgw →
    positions f msg = (List.range f.probes.toNat).map fun I =>
      ((hashMsg msg).h1.toNat + (I + 1) * (hashMsg msg).h2.toNat) % (64 * f.W)

/-- FADD completes on every VALID slot (R145 to R147): the bits after are the bits before and the probed ones; the
result is 1 exactly when every probed bit was 1 before; else the count goes up by one, or is held at IMAX with SAT;
nothing else changes. -/
def Obligations.FaddSetsTheProbedBits : Prop :=
  ∀ (fd : SlotNum) (msg : List Byte) (s : State) (f : Filter), s.slot fd = some f →
    ∃ t f', exec (.fadd fd msg) s = .next t ∧
      OnlySlotChanged fd s t
        ⟨status 0x11 (!allSet f msg && f.count == IMAX) 0, [zeroOrOne (allSet f msg)]⟩ ∧
      t.slot fd = some f' ∧ f'.W = f.W ∧ f'.probes = f.probes ∧
      (∀ n, Memory.bit f'.words n = (Memory.bit f.words n || decide (n ∈ positions f msg))) ∧
      f'.count = (if allSet f msg ∨ f.count = IMAX then f.count else f.count + 1#64)

/-- FTEST completes on every VALID slot: it answers 1 exactly when every probed bit is 1, and changes nothing else. -/
def Obligations.FtestReportsMembership : Prop :=
  ∀ (fd : SlotNum) (msg : List Byte) (s : State) (f : Filter), s.slot fd = some f →
    exec (.ftest fd msg) s = .next (replied s ⟨status 0x12 false 0, [zeroOrOne (allSet f msg)]⟩)

/-- FCOUNT completes on every VALID slot: it answers the count and changes nothing else. -/
def Obligations.FcountReportsTheCount : Prop :=
  ∀ (fd : SlotNum) (s : State) (f : Filter), s.slot fd = some f →
    exec (.fcount fd) s = .next (replied s ⟨status 0x13 false 0, [f.count]⟩)

/-- R27. Across any sequence of commands of which none replaces the slot's filter, no bit goes from 1 to 0, W and
probes do not change and the count never decreases. -/
def Obligations.InsertionIsMonotone : Prop :=
  ∀ (cmds : List Instr) (fd : SlotNum) (s : State) (f : Filter), s.slot fd = some f → f.count.toNat ≤ IMAX.toNat →
    (∀ i ∈ cmds, replacedSlot i ≠ some fd) →
    ∃ t f', execAll cmds s = .next t ∧ t.slot fd = some f' ∧ f'.W = f.W ∧ f'.probes = f.probes ∧
      (∀ n, Memory.bit f.words n = true → Memory.bit f'.words n = true) ∧
      f.count.toNat ≤ f'.count.toNat ∧ f'.count.toNat ≤ IMAX.toNat

/-- No false negatives (R152 (a)): after an FADD of x, FTEST of x answers 1 until the slot's filter is replaced. -/
def Obligations.NoFalseNegatives : Prop :=
  ∀ (fd : SlotNum) (x : List Byte) (s s1 : State) (f : Filter) (cmds : List Instr), s.slot fd = some f →
    exec (.fadd fd x) s = .next s1 → (∀ i ∈ cmds, replacedSlot i ≠ some fd) →
    ∃ t, execAll cmds s1 = .next t ∧
      exec (.ftest fd x) t = .next (replied t ⟨status 0x12 false 0, [1#64]⟩)

/-- Repeated insertion (R152 (b)): the second of two FADDs of x answers 1 and leaves the slots as they were. -/
def Obligations.SecondInsertionAnswersOne : Prop :=
  ∀ (fd : SlotNum) (x : List Byte) (s s1 : State) (f : Filter), s.slot fd = some f →
    exec (.fadd fd x) s = .next s1 →
    ∃ t, exec (.fadd fd x) s1 = .next t ∧ t.slots = s1.slots ∧
      t.responses = s1.responses ++ [⟨status 0x11 false 0, [1#64]⟩]

/-- A filter fresh from FNEW (R152 (e)): the count is 0 and every FTEST answers 0. -/
def Obligations.FreshFilterIsEmpty : Prop :=
  ∀ (fd : SlotNum) (n p : Word) (x : List Byte) (s : State), SlotPresent s fd → 2 ≤ p.toNat →
    sizeWords n.toNat p.toNat ≤ 2 ^ s.maxlgw →
    ∃ t, exec (.fnew fd n p) s = .next t ∧
      exec (.fcount fd) t = .next (replied t ⟨status 0x13 false 0, [0#64]⟩) ∧
      exec (.ftest fd x) t = .next (replied t ⟨status 0x12 false 0, [0#64]⟩)

/-- Of R151: on a filter made by FNEW and changed only by FADDs, the count is the number of those FADDs that answered 0,
and at most the number of distinct elements inserted (fewer than 2^63 FADDs). -/
def Obligations.CountTalliesNewInsertions : Prop :=
  ∀ (fd : SlotNum) (n p : Word) (s s0 : State) (xs : List (List Byte)) (f0 : Filter),
    exec (.fnew fd n p) s = .next s0 → s0.responses = s.responses ++ [⟨status 0x10 false 0, []⟩] →
    s0.slot fd = some f0 → xs.length < 2 ^ 63 →
    ∃ t f rs, execAll (xs.map fun x => .fadd fd x) s0 = .next t ∧ t.slot fd = some f ∧
      t.responses = s0.responses ++ rs ∧ rs.length = xs.length ∧
      f.count.toNat = rs.countP (fun r => r.results == [0#64]) ∧ f.count.toNat ≤ xs.dedup.length

/-! ## FUNION -/

/-- Of 43_filter_union.md R166 and R167: for X < m, EST(m, k, X) is the floor of the exact real estimate, and below
2^60 when m is at most 2^54 (MAXLGW at most 48). It is 0 for X = 0, grows with X and falls as k grows. The two ends the
model computes it from enclose that floor at every precision, and differ by at most one for such m; the two ends are
the model's own (log 5). -/
def Obligations.EstIsExact : Prop :=
  ∀ m k x : Nat, 0 < k → x < m →
    (let exact : ℤ := ⌊((m : ℝ) / k) * Real.log ((m : ℝ) / ((m : ℝ) - x))⌋
     (est m k x : ℤ) = exact ∧
     ∀ d, (lnFloorLo m k m (m - x) d : ℤ) ≤ exact ∧ exact ≤ lnFloorHi m k m (m - x) d ∧
       (m ≤ 2 ^ 54 → lnFloorHi m k m (m - x) d ≤ lnFloorLo m k m (m - x) d + 1)) ∧
    (m ≤ 2 ^ 54 → est m k x < 2 ^ 60) ∧ est m k 0 = 0 ∧
    (∀ y, x ≤ y → y < m → est m k x ≤ est m k y) ∧ ∀ k', k ≤ k' → est m k' x ≤ est m k x

/-- FUNION completes when the three slots exist, both sources are VALID, legal and compatible, and the destination is
neither source, the sources being allowed to be the same slot (R160, R163, R164, R168 to R170): the destination holds
the word-by-word OR with the shared W and probes and, X being its number of 1 bits, the count EST(64 W, k, X), or IMAX
with SAT when X = 64 W; the sources and all else are unchanged. -/
def Obligations.FunionMergesTheSources : Prop :=
  ∀ (fd fa fb : SlotNum) (s : State) (a b : Filter), SlotPresent s fd → s.slot fa = some a → s.slot fb = some b →
    fd ≠ fa → fd ≠ fb → a.W = b.W → a.probes = b.probes → a.Legal s.maxlgw → b.Legal s.maxlgw →
    Config.MaxlgwLegal s.maxlgw →
    ∃ t f, exec (.funion fd fa fb) s = .next t ∧ t.slot fd = some f ∧ f.W = a.W ∧ f.probes = a.probes ∧
      (∀ J, Memory.read f.words J = Memory.read a.words J ||| Memory.read b.words J) ∧
      onesIn f.W f.words ≤ 64 * f.W ∧
      OnlySlotChanged fd s t ⟨status 0x14 (onesIn f.W f.words == 64 * f.W) 0, []⟩ ∧
      (onesIn f.W f.words = 64 * f.W → f.count = 0x7FFFFFFFFFFFFFFF#64) ∧
      (onesIn f.W f.words < 64 * f.W →
        f.count.toNat = est (64 * f.W) f.probes.toNat (onesIn f.W f.words)) ∧
      t.slot fa = some a ∧ t.slot fb = some b

/-- R161, R162. FUNION on existing slots: a source EMPTY is ERR_NOFILTER; else the destination one of the sources is
ERR_ALIAS; else sources that differ in W or probes are ERR_INCOMPAT; nothing else changes. -/
def Obligations.FunionRefusesBadOperands : Prop :=
  ∀ (fd fa fb : SlotNum) (s : State), SlotPresent s fd → SlotPresent s fa → SlotPresent s fb →
    ((s.slot fa = none ∨ s.slot fb = none) →
      exec (.funion fd fa fb) s = .next (failed s (.funion fd fa fb) 0x06)) ∧
    ∀ a b, s.slot fa = some a → s.slot fb = some b →
      ((fd = fa ∨ fd = fb) → exec (.funion fd fa fb) s = .next (failed s (.funion fd fa fb) 0x07)) ∧
      (fd ≠ fa → fd ≠ fb → (a.W ≠ b.W ∨ a.probes ≠ b.probes) →
        exec (.funion fd fa fb) s = .next (failed s (.funion fd fa fb) 0x08))

/-- R171. Membership after union: what either source answers 1 to, the union answers 1 to; the converse fails: there are
two filters, a FUNION of them that answers OK and a message to which the union answers 1 and neither source does. -/
def Obligations.UnionKeepsMembership : Prop :=
  (∀ (fd fa fb : SlotNum) (s : State) (a b : Filter) (x : List Byte), SlotPresent s fd → s.slot fa = some a →
    s.slot fb = some b → fd ≠ fa → fd ≠ fb → a.W = b.W → a.probes = b.probes →
    a.Legal s.maxlgw → b.Legal s.maxlgw → (allSet a x = true ∨ allSet b x = true) →
    ∃ t, exec (.funion fd fa fb) s = .next t ∧
      exec (.ftest fd x) t = .next (replied t ⟨status 0x12 false 0, [1#64]⟩)) ∧
  ∃ (fd fa fb : SlotNum) (s t : State) (x : List Byte), s.Inv ∧ exec (.funion fd fa fb) s = .next t ∧
    t.responses = s.responses ++ [⟨status 0x14 false 0, []⟩] ∧
    exec (.ftest fa x) t = .next (replied t ⟨status 0x12 false 0, [0#64]⟩) ∧
    exec (.ftest fb x) t = .next (replied t ⟨status 0x12 false 0, [0#64]⟩) ∧
    exec (.ftest fd x) t = .next (replied t ⟨status 0x12 false 0, [1#64]⟩)

/-! ## FLOAD, FSTORE -/

/-- R182. FLOAD completes when the slot exists and the operands are legal: the slot's W, probes, count and all words
are the operands, stored and not merged, whatever it held before; nothing else changes. -/
def Obligations.FloadReplacesTheFilter : Prop :=
  ∀ (fd : SlotNum) (W k c : Word) (ws : List Word) (s : State), SlotPresent s fd → ws.length = W.toNat →
    PowerOfTwo W.toNat → W.toNat ≤ 2 ^ s.maxlgw → 1 ≤ k.toNat → k.toNat < 2 ^ 32 → c.toNat < 2 ^ 63 →
    ∃ t f, exec (.fload fd W k c ws) s = .next t ∧ OnlySlotChanged fd s t ⟨status 0x18 false 0, []⟩ ∧
      t.slot fd = some f ∧ f.W = W.toNat ∧ f.probes.toNat = k.toNat ∧ f.count = c ∧
      ∀ J, Memory.read f.words J = ws.getD J 0#64

/-- R181. FLOAD on an existing slot: W not a power of two, probes 0 or at least 2^32, or a negative count is ERR_PARAM,
also when W is over-large; else a W above 2^MAXLGW is ERR_CAPACITY; nothing else changes. -/
def Obligations.FloadRefusesBadOperands : Prop :=
  ∀ (fd : SlotNum) (W k c : Word) (ws : List Word) (s : State), SlotPresent s fd →
    ((¬ PowerOfTwo W.toNat ∨ k.toNat = 0 ∨ 2 ^ 32 ≤ k.toNat ∨ 2 ^ 63 ≤ c.toNat) →
      exec (.fload fd W k c ws) s = .next (failed s (.fload fd W k c ws) 0x04)) ∧
    (PowerOfTwo W.toNat → 1 ≤ k.toNat → k.toNat < 2 ^ 32 → c.toNat < 2 ^ 63 → 2 ^ s.maxlgw < W.toNat →
      exec (.fload fd W k c ws) s = .next (failed s (.fload fd W k c ws) 0x05))

/-- FSTORE completes on every VALID slot: it answers W, probes, count and the words in order, and changes nothing
else. -/
def Obligations.FstoreReportsTheFilter : Prop :=
  ∀ (fd : SlotNum) (s : State) (f : Filter), s.slot fd = some f →
    exec (.fstore fd) s = .next (replied s ⟨status 0x19 false 0,
      [BitVec.ofNat 64 f.W, BitVec.ofNat 64 f.probes.toNat, f.count] ++
        (List.range f.W).map (fun J => Memory.read f.words J)⟩)

/-- R185. The result words of FSTORE, given to FLOAD as its operands, are accepted and make the other slot equal; after
that FTEST, FCOUNT and FSTORE answer the same on both slots, and the two are union-compatible. -/
def Obligations.StoreThenLoadCopiesTheFilter : Prop :=
  ∀ (fa fb : SlotNum) (s : State) (f : Filter), s.Inv → s.slot fa = some f → SlotPresent s fb →
    ∃ s1 W k c ws, exec (.fstore fa) s = .next s1 ∧
      s1 = replied s ⟨status 0x19 false 0, W :: k :: c :: ws⟩ ∧ ws.length = W.toNat ∧
      ∃ t, exec (.fload fb W k c ws) s1 = .next t ∧ OnlySlotChanged fb s1 t ⟨status 0x18 false 0, []⟩ ∧
        t.slot fb = some f ∧ t.slot fa = some f ∧ compatible f f = true ∧
        (∀ x, ∃ r, exec (.ftest fa x) t = .next (replied t r) ∧ exec (.ftest fb x) t = .next (replied t r)) ∧
        (∃ r, exec (.fcount fa) t = .next (replied t r) ∧ exec (.fcount fb) t = .next (replied t r)) ∧
        ∃ r, exec (.fstore fa) t = .next (replied t r) ∧ exec (.fstore fb) t = .next (replied t r)

/-! ## Errors -/

/-- R194. A used slot field at or above NSLOTS is ERR_SLOT, and nothing else changes; with NSLOTS = 16 no command
answers ERR_SLOT. -/
def Obligations.MissingSlotIsRefused : Prop :=
  ∀ (i : Instr) (s : State),
    ((∃ n ∈ usedSlots i, s.nslots ≤ n.toNat) → exec i s = .next (failed s i 0x03)) ∧
    (s.nslots = 16 → exec i s ≠ .next (failed s i 0x03))

/-- R197. FADD, FTEST, FCOUNT and FSTORE of an existing EMPTY slot, and FUNION of existing slots with an EMPTY source,
are ERR_NOFILTER, and nothing else changes. -/
def Obligations.EmptySlotIsRefused : Prop :=
  ∀ (i : Instr) (s : State), (∀ n ∈ usedSlots i, SlotPresent s n) → (∃ n ∈ readSlots i, s.slot n = none) →
    exec i s = .next (failed s i 0x06)

/-- R190. A command that ends in an error has no effect but its response: the code, and no result words. -/
def Obligations.ErrorsChangeNothing : Prop :=
  ∀ (i : Instr) (s t : State) (r : Response), exec i s = .next t → t.responses = s.responses ++ [r] →
    r.status.toNat % 256 ≠ 0 → t = replied s r ∧ r.results = []

/-! ## Whole-machine rules -/

/-- What a command leaves alone (10_state.md R29): the parameters, the room in the channels, the reset
input, the command channel, and every slot but the one it may write. HASH, FTEST, FCOUNT and FSTORE write no slot. -/
def Obligations.OnlyTheWrittenSlotChanges : Prop :=
  ∀ (i : Instr) (s t : State), exec i s = .next t →
    t.maxlgw = s.maxlgw ∧ t.responseRoom = s.responseRoom ∧ t.commandRoom = s.commandRoom ∧
      t.nslots = s.nslots ∧ t.resetIn = s.resetIn ∧ t.incoming = s.incoming ∧ t.commands = s.commands ∧
      ∀ j, (∀ fd, writtenSlot i = some fd → j ≠ fd.toNat) → t.slots[j]? = s.slots[j]?

/-- Of 10_state.md R21: no command makes a VALID slot EMPTY, and a slot becomes VALID only by an FNEW, FLOAD or FUNION
that answers OK and whose destination it is. -/
def Obligations.ValidIsSetOnlyByConstruction : Prop :=
  ∀ (i : Instr) (s t : State) (n : SlotNum), exec i s = .next t →
    (s.slot n ≠ none → t.slot n ≠ none) ∧
    (s.slot n = none → t.slot n ≠ none →
      replacedSlot i = some n ∧ ∃ r, t.responses = s.responses ++ [r] ∧ r.status.toNat % 256 = 0)

/-- A response depends only on the parameters and on the slots the command reads: two states that agree on those get
the same response. -/
def Obligations.ResponseDependsOnlyOnSlotsRead : Prop :=
  ∀ (i : Instr) (s s' : State), s.nslots = s'.nslots → s.maxlgw = s'.maxlgw →
    (∀ n ∈ readSlots i, s.slot n = s'.slot n) →
    ∃ t t' r, exec i s = .next t ∧ exec i s' = .next t' ∧ t.responses = s.responses ++ [r] ∧
      t'.responses = s'.responses ++ [r]

/-- R26. The invariants of every VALID slot are kept by every step. -/
def Obligations.StepKeepsInvariant : Prop :=
  ∀ s t : State, s.Inv → step s = .next t → t.Inv

/-- Of R227: whatever the host does and however often the block steps, from any state that meets the invariant: the run
never stops and every state it reaches meets the invariant. -/
def Obligations.EveryRunIsSafe : Prop :=
  ∀ (es : List Event) (s : State), s.Inv → SafeRun es s
end

