-- ==== Sys2Proof/Laws/Decode.lean ====
section
/-! SUPPORT. Laws of the helpers of the decoder and encoder: bytes of a `le64` word, payload words and their bytes,
header fields. -/

namespace Sys2Proof

/-! ## Bytes of words (30_encoding.md R73) -/

theorem word_eq_of_bytes {v w : Word} (h : ∀ t, t < 8 → v.extractLsb' (8 * t) 8 = w.extractLsb' (8 * t) 8) : v = w := by
  refine BitVec.eq_of_getLsbD_eq fun i hi => ?_
  have := congrArg (fun b => b.getLsbD (i % 8)) (h (i / 8) (by omega))
  have hm : i % 8 < 8 := Nat.mod_lt _ (by omega)
  simpa [BitVec.getLsbD_extractLsb', hm, Nat.div_add_mod] using this

/-- Byte `t` of `le64 bs` is `bs[t]`, zero where there is none. -/
theorem byte_le64 (bs : List Byte) (t : Nat) (ht : t < 8) : (le64 bs).extractLsb' (8 * t) 8 = bs.getD t 0#8 := by
  induction bs generalizing t with
  | nil => simp [le64]
  | cons b bs ih =>
    refine BitVec.eq_of_getLsbD_eq fun i hi => ?_
    cases t with
    | zero =>
      simp only [le64, BitVec.getLsbD_extractLsb', BitVec.getLsbD_or, BitVec.getLsbD_setWidth,
        BitVec.getLsbD_shiftLeft, List.getD_cons_zero]
      simp [hi]
      intro h; omega
    | succ t =>
      have hb : b.getLsbD (8 * (t + 1) + i) = false := BitVec.getLsbD_of_ge _ _ (by omega)
      have hrec := congrArg (fun x => x.getLsbD i) (ih t (by omega))
      simp only [BitVec.getLsbD_extractLsb', hi, decide_true, Bool.true_and] at hrec
      simp only [le64, BitVec.getLsbD_extractLsb', BitVec.getLsbD_or, BitVec.getLsbD_setWidth,
        BitVec.getLsbD_shiftLeft, List.getD_cons_succ, hb, hi, ← hrec]
      have h1 : 8 * (t + 1) + i < 64 := by omega
      have h2 : ¬ 8 * (t + 1) + i < 8 := by omega
      have h3 : 8 * (t + 1) + i - 8 = 8 * t + i := by omega
      simp [h1, h2, h3]

/-- Byte `t` of the byte list of a word. -/
theorem getD_wordBytes (w : Word) (t : Nat) (ht : t < 8) : (wordBytes w).getD t 0#8 = w.extractLsb' (8 * t) 8 := by
  unfold wordBytes
  interval_cases t <;> rfl

@[simp] theorem length_wordBytes (w : Word) : (wordBytes w).length = 8 := rfl

@[simp] theorem length_flatMap_wordBytes (ws : List Word) : (ws.flatMap wordBytes).length = 8 * ws.length := by
  induction ws with
  | nil => rfl
  | cons w ws ih => simp [ih]; omega

/-- Byte `b` of the payload: byte `b % 8` of word `b / 8`. -/
theorem getD_flatMap_wordBytes (ws : List Word) (b : Nat) :
    (ws.flatMap wordBytes).getD b 0#8 = (ws.getD (b / 8) 0#64).extractLsb' (8 * (b % 8)) 8 := by
  induction ws generalizing b with
  | nil => simp
  | cons w ws ih =>
    rw [List.flatMap_cons]
    rcases Nat.lt_or_ge b 8 with hb | hb
    · have h1 : b / 8 = 0 := by omega
      have h2 : b % 8 = b := by omega
      rw [List.getD_append _ _ _ _ (by simpa using hb), getD_wordBytes w b hb, h1, h2]
      rfl
    · obtain ⟨c, rfl⟩ : ∃ c, b = c + 8 := ⟨b - 8, by omega⟩
      rw [List.getD_append_right _ _ _ _ (by simp), length_wordBytes, Nat.add_sub_cancel, ih]
      have h1 : (c + 8) / 8 = c / 8 + 1 := by omega
      have h2 : (c + 8) % 8 = c % 8 := by omega
      rw [h1, h2, List.getD_cons_succ]

@[simp] theorem length_packWords (n : Nat) (bs : List Byte) : (packWords n bs).length = n := by
  induction n generalizing bs with
  | zero => rfl
  | succ n ih => simp [packWords, ih]

theorem byte_packWords (n : Nat) (bs : List Byte) (i t : Nat) (hi : i < n) (ht : t < 8) :
    ((packWords n bs).getD i 0#64).extractLsb' (8 * t) 8 = bs.getD (8 * i + t) 0#8 := by
  induction n generalizing bs i with
  | zero => omega
  | succ n ih =>
    cases i with
    | zero =>
      rw [packWords, List.getD_cons_zero, byte_le64 _ _ ht]
      simp [List.getD, ht]
    | succ i =>
      rw [packWords, List.getD_cons_succ, ih _ _ (by omega)]
      simp only [List.getD, List.getElem?_drop]
      congr 2
      omega

/-- Packing a message and reading its bytes back gives the message (30_encoding.md R73, R74). -/
theorem take_flatMap_packWords (bs : List Byte) (n : Nat) (h : bs.length ≤ 8 * n) :
    ((packWords n bs).flatMap wordBytes).take bs.length = bs := by
  refine List.ext_getElem (by simp; omega) fun b h1 h2 => ?_
  have hb : b / 8 < n := by omega
  have key := getD_flatMap_wordBytes (packWords n bs) b
  rw [byte_packWords n bs (b / 8) (b % 8) hb (Nat.mod_lt _ (by omega)), Nat.div_add_mod] at key
  have hlen : b < ((packWords n bs).flatMap wordBytes).length := by simp; omega
  simp only [List.getElem_take]
  rw [List.getD_eq_getElem _ _ hlen, List.getD_eq_getElem _ _ h2] at key
  exact key

/-! ## Packet lengths (30_encoding.md R72) -/

theorem payloadWords_eq (L : Word) : payloadWords L = (L.toNat + 7) / 8 := by
  have h3 : (L >>> 3).toNat = L.toNat / 8 := by simp [Nat.shiftRight_eq_div_pow]
  have h7 : (L &&& 7#64).toNat = L.toNat % 8 := by
    rw [BitVec.toNat_and]
    exact Nat.and_two_pow_sub_one_eq_mod L.toNat 3
  have h0 : L &&& 7#64 = 0#64 ↔ L.toNat % 8 = 0 := by
    rw [← BitVec.toNat_inj, h7]; simp
  simp only [payloadWords, h3, h0]
  split <;> omega

/-! ## Header fields (30_encoding.md R71) -/

theorem toNat_opc (p : Packet) : p.opc.toNat = p.header.toNat / 2 ^ 56 := by
  have : p.header.toNat / 2 ^ 56 < 2 ^ 8 := by have := p.header.isLt; omega
  simp only [Packet.opc, BitVec.extractLsb'_toNat, Nat.shiftRight_eq_div_pow]
  omega

theorem toNat_fd (p : Packet) : p.fd.toNat = p.header.toNat / 2 ^ 52 % 16 := by
  simp [Packet.fd, BitVec.extractLsb'_toNat, Nat.shiftRight_eq_div_pow]

theorem toNat_fa (p : Packet) : p.fa.toNat = p.header.toNat / 2 ^ 48 % 16 := by
  simp [Packet.fa, BitVec.extractLsb'_toNat, Nat.shiftRight_eq_div_pow]

theorem toNat_fb (p : Packet) : p.fb.toNat = p.header.toNat / 2 ^ 44 % 16 := by
  simp [Packet.fb, BitVec.extractLsb'_toNat, Nat.shiftRight_eq_div_pow]

theorem toNat_rsv (p : Packet) : p.rsv.toNat = p.header.toNat % 2 ^ 44 := by
  simp [Packet.rsv, BitVec.extractLsb'_toNat, Nat.shiftRight_eq_div_pow]

/-- The command an opcode byte names has that byte as its code. -/
theorem Op.ofByte_eq_some_iff {b : BitVec 8} {o : Op} : Op.ofByte b = some o ↔ o.code = b := by
  revert b; cases o <;> decide

@[simp] theorem Op.ofByte_code (o : Op) : Op.ofByte o.code = some o := Op.ofByte_eq_some_iff.mpr rfl

/-- What a packet must satisfy to decode, and what it decodes to (30_encoding.md R79). -/
theorem decode_eq_ok_iff {p : Packet} {i : Instr} :
    decode p = .ok i ↔
      ∃ o, p.opc = Op.code o ∧ headerClean o p = true ∧ lengthOk o.format p.body = true ∧ i = assemble o p := by
  unfold decode
  cases h : Op.ofByte p.opc with
  | none =>
    simp only [reduceCtorEq, false_iff, not_exists]
    rintro o ⟨ho, _⟩
    rw [ho] at h
    simp at h
  | some o =>
    have ho : p.opc = Op.code o := (Op.ofByte_eq_some_iff.mp h).symm
    have huniq : ∀ o', p.opc = Op.code o' → o' = o := fun o' h' => by
      have := h' ▸ h
      simpa using this
    by_cases hc : headerClean o p = true
    · by_cases hl : lengthOk o.format p.body = true
      · simp only [hc, hl, if_true, Except.ok.injEq]
        exact ⟨fun e => ⟨o, ho, hc, hl, e.symm⟩, fun ⟨o', h', _, _, e⟩ => by rw [e, huniq o' h']⟩
      · simp only [hc, hl, if_true, if_false, reduceCtorEq, false_iff, not_exists]
        rintro o' ⟨h', _, hl', _⟩
        exact hl (huniq o' h' ▸ hl')
    · simp only [hc, if_false, reduceCtorEq, false_iff, not_exists]
      rintro o' ⟨h', hc', _⟩
      exact hc (huniq o' h' ▸ hc')

end Sys2Proof
end

