-- ==== Sys2Proof/Laws/Numeric.lean ====
section
/-! SUPPORT. The integer enclosures of `Machine/Numeric.lean` enclose: for `0 < b <= a`,
`lnLo d a b <= lnScale d * ln (a/b) <= lnHi d a b`, at every precision,
with bounds on their size and width. -/

namespace Sys2Proof.Machine

variable {d : ℕ}

theorem lnScale_pos (d : ℕ) : 0 < lnScale d := by unfold lnScale; positivity

theorem eighteen_le_lnScale (d : ℕ) : 18 ≤ lnScale d :=
  calc 18 ≤ 2 ^ (256 * 1) := by norm_num
    _ ≤ 2 ^ (256 * 2 ^ d) := Nat.pow_le_pow_right (by norm_num) (Nat.mul_le_mul_left _ Nat.one_le_two_pow)

/-- Enough terms: what the rest of the series can add is at most one unit of the last place. -/
theorem two_mul_lnScale_le (d : ℕ) : 2 * lnScale d ≤ 9 ^ lnTerms d := by
  unfold lnScale lnTerms
  have h1 : 1 ≤ 2 ^ d := Nat.one_le_two_pow
  calc 2 * 2 ^ (256 * 2 ^ d) = 2 ^ (256 * 2 ^ d + 1) := by rw [pow_succ, mul_comm]
    _ ≤ 2 ^ (3 * (88 * 2 ^ d)) := Nat.pow_le_pow_right (by norm_num) (by omega)
    _ = 8 ^ (88 * 2 ^ d) := by rw [pow_mul]; norm_num
    _ ≤ 9 ^ (88 * 2 ^ d) := Nat.pow_le_pow_left (by norm_num) _

theorem natCast_div_le {a b : ℕ} (hb : 0 < b) : ((a / b : ℕ) : ℝ) ≤ (a : ℝ) / b := by
  rw [le_div_iff₀ (by exact_mod_cast hb)]
  exact_mod_cast Nat.div_mul_le_self a b

theorem le_natCast_div_add_one {a b : ℕ} (hb : 0 < b) : (a : ℝ) / b ≤ ((a / b + 1 : ℕ) : ℝ) := by
  rw [div_le_iff₀ (by exact_mod_cast hb)]
  exact_mod_cast (Nat.lt_mul_of_div_lt (Nat.lt_succ_self _) hb).le

/-! ## The series -/

/-- The sum of `z^(2j) / (2(i+j) + 1)` over `j`. -/
noncomputable def artanhTail (z : ℝ) (i : ℕ) : ℝ := ∑' j : ℕ, z ^ (2 * j) / (2 * ((i + j : ℕ) : ℝ) + 1)

section

variable {z : ℝ}

theorem artanhTail_term_le (hz : z ^ 2 ≤ 1 / 9) (i j : ℕ) :
    z ^ (2 * j) / (2 * ((i + j : ℕ) : ℝ) + 1) ≤ (1 / 9 : ℝ) ^ j := by
  have h1 : z ^ (2 * j) ≤ (1 / 9 : ℝ) ^ j := by
    rw [pow_mul]; exact pow_le_pow_left₀ (sq_nonneg z) hz j
  have h2 : (1 : ℝ) ≤ 2 * ((i + j : ℕ) : ℝ) + 1 := by
    have : (0 : ℝ) ≤ ((i + j : ℕ) : ℝ) := Nat.cast_nonneg _
    linarith
  exact (div_le_self (by rw [pow_mul]; positivity) h2).trans h1

theorem artanhTail_term_nonneg (z : ℝ) (i j : ℕ) : 0 ≤ z ^ (2 * j) / (2 * ((i + j : ℕ) : ℝ) + 1) := by
  rw [pow_mul]; positivity

theorem artanhTail_summable (hz : z ^ 2 ≤ 1 / 9) (i : ℕ) :
    Summable fun j : ℕ => z ^ (2 * j) / (2 * ((i + j : ℕ) : ℝ) + 1) :=
  Summable.of_nonneg_of_le (artanhTail_term_nonneg z i) (artanhTail_term_le hz i)
    (summable_geometric_of_lt_one (by norm_num) (by norm_num))

theorem artanhTail_nonneg (z : ℝ) (i : ℕ) : 0 ≤ artanhTail z i := tsum_nonneg (artanhTail_term_nonneg z i)

theorem artanhTail_le_two (hz : z ^ 2 ≤ 1 / 9) (i : ℕ) : artanhTail z i ≤ 2 := by
  have h := (artanhTail_summable hz i).tsum_le_tsum (artanhTail_term_le hz i)
    (summable_geometric_of_lt_one (by norm_num) (by norm_num))
  rw [tsum_geometric_of_lt_one (by norm_num) (by norm_num)] at h
  exact h.trans (by norm_num)

/-- Horner's rule: one term taken off the front. -/
theorem artanhTail_succ (hz : z ^ 2 ≤ 1 / 9) (i : ℕ) :
    artanhTail z i = 1 / (2 * (i : ℝ) + 1) + z ^ 2 * artanhTail z (i + 1) := by
  have hhead : z ^ (2 * 0) / (2 * ((i + 0 : ℕ) : ℝ) + 1) = 1 / (2 * (i : ℝ) + 1) := by simp
  have htail : ∑' j : ℕ, z ^ (2 * (j + 1)) / (2 * ((i + (j + 1) : ℕ) : ℝ) + 1) = z ^ 2 * artanhTail z (i + 1) := by
    unfold artanhTail
    rw [← tsum_mul_left]
    refine tsum_congr fun j => ?_
    rw [show i + (j + 1) = i + 1 + j by omega, mul_add, pow_add]
    ring
  rw [← hhead, ← htail]
  exact (artanhTail_summable hz i).tsum_eq_zero_add

/-- The logarithm as the whole series. -/
theorem log_eq_artanhTail (h0 : 0 ≤ z) (hz : z ≤ 1 / 3) : Real.log ((1 + z) / (1 - z)) = 2 * z * artanhTail z 0 := by
  have hlt : |z| < 1 := by rw [abs_of_nonneg h0]; linarith
  rw [Real.log_div (by linarith) (by linarith), ← (Real.hasSum_log_sub_log_of_abs_lt_one hlt).tsum_eq]
  unfold artanhTail
  rw [← tsum_mul_left]
  refine tsum_congr fun j => ?_
  rw [pow_succ]
  simp only [zero_add]
  ring

end

section

variable {u v : ℕ}

theorem ratio_sq_le (hv : 0 < v) (h : 3 * u ≤ v) : ((u : ℝ) / v) ^ 2 ≤ 1 / 9 := by
  have hv' : (0 : ℝ) < v := by exact_mod_cast hv
  have h' : (3 : ℝ) * u ≤ v := by exact_mod_cast h
  have h1 : (u : ℝ) / v ≤ 1 / 3 := by rw [div_le_iff₀ hv']; linarith
  calc ((u : ℝ) / v) ^ 2 ≤ (1 / 3) ^ 2 := by gcongr
    _ = 1 / 9 := by norm_num

theorem seriesLo_le (hv : 0 < v) (h : 3 * u ≤ v) (n i : ℕ) :
    (seriesLo d u v n i : ℝ) ≤ lnScale d * artanhTail ((u : ℝ) / v) i := by
  induction n generalizing i with
  | zero =>
    have := artanhTail_nonneg ((u : ℝ) / v) i
    simp only [seriesLo, Nat.cast_zero]
    positivity
  | succ n ih =>
    rw [artanhTail_succ (ratio_sq_le hv h) i, seriesLo, Nat.cast_add, mul_add]
    refine add_le_add ?_ ?_
    · refine (natCast_div_le (by omega)).trans (le_of_eq ?_)
      push_cast
      ring
    · refine (natCast_div_le (by positivity)).trans ?_
      have hv' : (0 : ℝ) < v := by exact_mod_cast hv
      push_cast
      rw [div_le_iff₀ (by positivity)]
      have := mul_le_mul_of_nonneg_left (ih (i + 1)) (by positivity : (0 : ℝ) ≤ (u : ℝ) * u)
      refine this.trans (le_of_eq ?_)
      field_simp

theorem le_seriesHi (hv : 0 < v) (h : 3 * u ≤ v) (n i : ℕ) :
    lnScale d * artanhTail ((u : ℝ) / v) i ≤ (seriesHi d u v n i : ℝ) := by
  induction n generalizing i with
  | zero =>
    have := artanhTail_le_two (ratio_sq_le hv h) i
    simp only [seriesHi, Nat.cast_mul, Nat.cast_ofNat]
    rw [mul_comm (2 : ℝ)]
    gcongr
  | succ n ih =>
    rw [artanhTail_succ (ratio_sq_le hv h) i, seriesHi, Nat.cast_add, mul_add]
    refine add_le_add ?_ ?_
    · refine (le_of_eq ?_).trans (le_natCast_div_add_one (by omega))
      push_cast
      ring
    · refine le_trans ?_ (le_natCast_div_add_one (by positivity))
      have hv' : (0 : ℝ) < v := by exact_mod_cast hv
      push_cast
      rw [le_div_iff₀ (by positivity)]
      have := mul_le_mul_of_nonneg_left (ih (i + 1)) (by positivity : (0 : ℝ) ≤ (u : ℝ) * u)
      refine (le_of_eq ?_).trans this
      field_simp

theorem seriesHi_le (hv : 0 < v) (h : 3 * u ≤ v) (n i : ℕ) : seriesHi d u v n i ≤ 2 * lnScale d := by
  induction n generalizing i with
  | zero => exact le_refl _
  | succ n ih =>
    have h1 : lnScale d / (2 * i + 1) ≤ lnScale d := Nat.div_le_self _ _
    have h2 : u * u * seriesHi d u v n (i + 1) / (v * v) ≤ 2 * lnScale d / 9 := by
      rw [Nat.le_div_iff_mul_le (by norm_num)]
      have h3 := Nat.div_mul_le_self (u * u * seriesHi d u v n (i + 1)) (v * v)
      have h4 : u * u * 9 ≤ v * v := by nlinarith
      have h5 := ih (i + 1)
      have hpos : 0 < v * v := by positivity
      refine Nat.le_of_mul_le_mul_right ?_ hpos
      nlinarith [Nat.mul_le_mul h4 h5]
    have h6 := eighteen_le_lnScale d
    simp only [seriesHi]
    omega

/-- The two ends of the series are close: 88 terms leave less than one unit of the last place to the tail. -/
theorem seriesHi_le_seriesLo_add (hv : 0 < v) (h : 3 * u ≤ v) (n i : ℕ) :
    (seriesHi d u v n i : ℝ) ≤ seriesLo d u v n i + 4 + 2 * lnScale d / 9 ^ n := by
  induction n generalizing i with
  | zero => simp [seriesHi, seriesLo]
  | succ n ih =>
    have hv' : (0 : ℝ) < v := by exact_mod_cast hv
    have hsq : (u : ℝ) * u / (v * v) ≤ 1 / 9 := by
      have := ratio_sq_le hv h
      rwa [div_pow, sq, sq] at this
    have hup := natCast_div_le (a := u * u * seriesHi d u v n (i + 1)) (b := v * v) (by positivity)
    have hlow := le_natCast_div_add_one (a := u * u * seriesLo d u v n (i + 1)) (b := v * v) (by positivity)
    have hi := ih (i + 1)
    have hgap : (0 : ℝ) ≤ 4 + 2 * lnScale d / 9 ^ n := by positivity
    have hmul : (u : ℝ) * u / (v * v) * (seriesHi d u v n (i + 1) : ℝ) ≤
        (u : ℝ) * u / (v * v) * (seriesLo d u v n (i + 1) : ℝ) + 1 / 9 * (4 + 2 * lnScale d / 9 ^ n) := by
      have := mul_le_mul_of_nonneg_left hi (by positivity : (0 : ℝ) ≤ (u : ℝ) * u / (v * v))
      nlinarith [mul_le_mul_of_nonneg_right hsq hgap]
    have hpow : (2 * (lnScale d : ℝ) / 9 ^ (n + 1)) = 1 / 9 * (2 * lnScale d / 9 ^ n) := by
      rw [pow_succ]; field_simp
    simp only [seriesHi, seriesLo]
    push_cast at *
    rw [mul_div_right_comm] at hup hlow
    rw [hpow]
    nlinarith

end

/-! ## The logarithm of a ratio in [1, 2] -/

section

variable {a b : ℕ}

theorem unit_ratio (hb : 0 < b) (hba : b ≤ a) :
    (a : ℝ) / b = (1 + ((a - b : ℕ) : ℝ) / ((a + b : ℕ) : ℝ)) / (1 - ((a - b : ℕ) : ℝ) / ((a + b : ℕ) : ℝ)) := by
  have hb' : (0 : ℝ) < b := by exact_mod_cast hb
  have ha' : (0 : ℝ) < a := by exact_mod_cast lt_of_lt_of_le hb hba
  have hab : (a : ℝ) + b ≠ 0 := by positivity
  have h1 : 1 + ((a : ℝ) - b) / (a + b) = 2 * a / (a + b) := by field_simp; ring
  have h2 : 1 - ((a : ℝ) - b) / (a + b) = 2 * b / (a + b) := by field_simp; ring
  rw [Nat.cast_sub hba, Nat.cast_add, h1, h2, div_div_div_cancel_right₀ hab,
    mul_div_mul_left _ _ (by norm_num : (2 : ℝ) ≠ 0)]

theorem log_unit (hb : 0 < b) (hba : b ≤ a) (h2 : a ≤ 2 * b) :
    Real.log ((a : ℝ) / b) =
      2 * (((a - b : ℕ) : ℝ) / ((a + b : ℕ) : ℝ)) * artanhTail (((a - b : ℕ) : ℝ) / ((a + b : ℕ) : ℝ)) 0 := by
  have hv : (0 : ℝ) < ((a + b : ℕ) : ℝ) := by exact_mod_cast (by omega : 0 < a + b)
  rw [unit_ratio hb hba]
  refine log_eq_artanhTail (by positivity) ?_
  rw [div_le_iff₀ hv]
  have h : ((3 * (a - b) : ℕ) : ℝ) ≤ ((a + b : ℕ) : ℝ) := by exact_mod_cast (by omega : 3 * (a - b) ≤ a + b)
  rw [Nat.cast_mul, Nat.cast_ofNat] at h
  linarith

theorem lnUnitLo_le (hb : 0 < b) (hba : b ≤ a) (h2 : a ≤ 2 * b) :
    (lnUnitLo d a b : ℝ) ≤ lnScale d * Real.log ((a : ℝ) / b) := by
  have hv : (0 : ℝ) < ((a + b : ℕ) : ℝ) := by exact_mod_cast (by omega : 0 < a + b)
  have hs := seriesLo_le (d := d) (u := a - b) (v := a + b) (by omega) (by omega) (lnTerms d) 0
  rw [log_unit hb hba h2]
  refine (natCast_div_le (by omega)).trans ?_
  rw [div_le_iff₀ hv, Nat.cast_mul, Nat.cast_mul, Nat.cast_ofNat]
  have := mul_le_mul_of_nonneg_left hs (by positivity : (0 : ℝ) ≤ 2 * ((a - b : ℕ) : ℝ))
  refine this.trans (le_of_eq ?_)
  field_simp

theorem le_lnUnitHi (hb : 0 < b) (hba : b ≤ a) (h2 : a ≤ 2 * b) :
    lnScale d * Real.log ((a : ℝ) / b) ≤ (lnUnitHi d a b : ℝ) := by
  have hv : (0 : ℝ) < ((a + b : ℕ) : ℝ) := by exact_mod_cast (by omega : 0 < a + b)
  have hs := le_seriesHi (d := d) (u := a - b) (v := a + b) (by omega) (by omega) (lnTerms d) 0
  rw [log_unit hb hba h2]
  refine le_trans ?_ (le_natCast_div_add_one (by omega))
  rw [le_div_iff₀ hv, Nat.cast_mul, Nat.cast_mul, Nat.cast_ofNat]
  have := mul_le_mul_of_nonneg_left hs (by positivity : (0 : ℝ) ≤ 2 * ((a - b : ℕ) : ℝ))
  refine (le_of_eq ?_).trans this
  field_simp

theorem lnUnitHi_le (hb : 0 < b) (hba : b ≤ a) (h2 : a ≤ 2 * b) : lnUnitHi d a b ≤ 2 * lnScale d := by
  have hs := seriesHi_le (d := d) (u := a - b) (v := a + b) (by omega) (by omega) (lnTerms d) 0
  have h6 := eighteen_le_lnScale d
  have h : 2 * (a - b) * seriesHi d (a - b) (a + b) (lnTerms d) 0 / (a + b) ≤ 4 * lnScale d / 3 := by
    rw [Nat.le_div_iff_mul_le (by norm_num)]
    have h3 := Nat.div_mul_le_self (2 * (a - b) * seriesHi d (a - b) (a + b) (lnTerms d) 0) (a + b)
    refine Nat.le_of_mul_le_mul_right ?_ (show 0 < a + b by omega)
    have h4 : 2 * (a - b) * 3 ≤ 2 * (a + b) := by omega
    nlinarith [Nat.mul_le_mul h4 hs]
  unfold lnUnitHi
  omega

theorem lnUnitHi_le_lnUnitLo_add (hb : 0 < b) (hba : b ≤ a) (h2 : a ≤ 2 * b) :
    lnUnitHi d a b ≤ lnUnitLo d a b + 6 := by
  have hv : (0 : ℝ) < ((a + b : ℕ) : ℝ) := by exact_mod_cast (by omega : 0 < a + b)
  have hs := seriesHi_le_seriesLo_add (d := d) (u := a - b) (v := a + b) (by omega) (by omega) (lnTerms d) 0
  have htail : 2 * (lnScale d : ℝ) / 9 ^ (lnTerms d) ≤ 1 := by
    rw [div_le_one (by positivity)]
    exact_mod_cast two_mul_lnScale_le d
  have hup := natCast_div_le (a := 2 * (a - b) * seriesHi d (a - b) (a + b) (lnTerms d) 0) (b := a + b) (by omega)
  have hlow := le_natCast_div_add_one (a := 2 * (a - b) * seriesLo d (a - b) (a + b) (lnTerms d) 0) (b := a + b) (by omega)
  have h3 : ((3 * (a - b) : ℕ) : ℝ) ≤ ((a + b : ℕ) : ℝ) := by exact_mod_cast (by omega : 3 * (a - b) ≤ a + b)
  have hz : 2 * ((a - b : ℕ) : ℝ) / ((a + b : ℕ) : ℝ) ≤ 2 / 3 := by
    rw [div_le_div_iff₀ hv (by norm_num)]
    push_cast at h3 ⊢
    linarith
  have hz0 : 0 ≤ 2 * ((a - b : ℕ) : ℝ) / ((a + b : ℕ) : ℝ) := by positivity
  have hreal : (lnUnitHi d a b : ℝ) < (lnUnitLo d a b : ℝ) + 7 := by
    unfold lnUnitHi lnUnitLo
    rw [Nat.cast_mul, Nat.cast_mul, Nat.cast_ofNat, mul_div_right_comm] at hup hlow
    rw [Nat.cast_succ] at hlow ⊢
    nlinarith [mul_le_mul_of_nonneg_left hs hz0]
  have : lnUnitHi d a b < lnUnitLo d a b + 7 := by exact_mod_cast hreal
  omega

end

/-! ## The logarithm of any ratio at least 1 -/

section

variable {a b : ℕ}

theorem unit_of_ratio (hb : 0 < b) (hba : b ≤ a) :
    0 < b * 2 ^ (a / b).log2 ∧ b * 2 ^ (a / b).log2 ≤ a ∧ a ≤ 2 * (b * 2 ^ (a / b).log2) := by
  have hq : a / b ≠ 0 := by
    have := Nat.div_pos hba hb
    omega
  have h1 : 2 ^ (a / b).log2 ≤ a / b := Nat.log2_self_le hq
  have h2 : a / b < 2 ^ ((a / b).log2 + 1) := Nat.lt_log2_self
  refine ⟨by positivity, ?_, ?_⟩
  · calc b * 2 ^ (a / b).log2 ≤ b * (a / b) := Nat.mul_le_mul_left _ h1
      _ ≤ a := Nat.mul_div_le a b
  · have h3 : a < b * 2 ^ ((a / b).log2 + 1) := by
      have := (Nat.div_lt_iff_lt_mul hb).mp h2
      rwa [mul_comm] at this
    rw [pow_succ] at h3
    nlinarith

theorem log_ratio (hb : 0 < b) (hba : b ≤ a) :
    Real.log ((a : ℝ) / b) =
      (a / b).log2 * Real.log ((2 : ℕ) / (1 : ℕ)) + Real.log ((a : ℝ) / ((b * 2 ^ (a / b).log2 : ℕ) : ℝ)) := by
  have hb' : (0 : ℝ) < b := by exact_mod_cast hb
  have ha' : (0 : ℝ) < a := by exact_mod_cast lt_of_lt_of_le hb hba
  have hp : (((b * 2 ^ (a / b).log2 : ℕ) : ℕ) : ℝ) = b * 2 ^ (a / b).log2 := by push_cast; rfl
  rw [hp, Real.log_div ha'.ne' hb'.ne', Real.log_div ha'.ne' (by positivity), Real.log_mul hb'.ne' (by positivity),
    Real.log_pow]
  simp only [Nat.cast_ofNat, Nat.cast_one, div_one]
  ring

/-- The lower end lies below. -/
theorem lnLo_le (hb : 0 < b) (hba : b ≤ a) : (lnLo d a b : ℝ) ≤ lnScale d * Real.log ((a : ℝ) / b) := by
  obtain ⟨h1, h2, h3⟩ := unit_of_ratio hb hba
  have h4 := lnUnitLo_le (d := d) h1 h2 h3
  have h5 := lnUnitLo_le (d := d) (a := 2) (b := 1) (by norm_num) (by norm_num) (by norm_num)
  rw [log_ratio hb hba]
  simp only [lnLo]
  push_cast at *
  nlinarith [mul_le_mul_of_nonneg_left h5 (Nat.cast_nonneg (α := ℝ) (a / b).log2)]

/-- The upper end lies above. -/
theorem le_lnHi (hb : 0 < b) (hba : b ≤ a) : lnScale d * Real.log ((a : ℝ) / b) ≤ (lnHi d a b : ℝ) := by
  obtain ⟨h1, h2, h3⟩ := unit_of_ratio hb hba
  have h4 := le_lnUnitHi (d := d) h1 h2 h3
  have h5 := le_lnUnitHi (d := d) (a := 2) (b := 1) (by norm_num) (by norm_num) (by norm_num)
  rw [log_ratio hb hba]
  simp only [lnHi]
  push_cast at *
  nlinarith [mul_le_mul_of_nonneg_left h5 (Nat.cast_nonneg (α := ℝ) (a / b).log2)]

theorem lnHi_le (hb : 0 < b) (hba : b ≤ a) : lnHi d a b ≤ 2 * lnScale d * ((a / b).log2 + 1) := by
  obtain ⟨h1, h2, h3⟩ := unit_of_ratio hb hba
  have h4 := lnUnitHi_le (d := d) h1 h2 h3
  have h5 := lnUnitHi_le (d := d) (a := 2) (b := 1) (by norm_num) (by norm_num) (by norm_num)
  simp only [lnHi]
  nlinarith [Nat.mul_le_mul_left (a / b).log2 h5]

/-- The enclosure is narrow: at most 6 units of the last place for each power of two and one more. -/
theorem lnHi_le_lnLo_add (hb : 0 < b) (hba : b ≤ a) : lnHi d a b ≤ lnLo d a b + 6 * ((a / b).log2 + 1) := by
  obtain ⟨h1, h2, h3⟩ := unit_of_ratio hb hba
  have h4 := lnUnitHi_le_lnUnitLo_add (d := d) h1 h2 h3
  have h5 := lnUnitHi_le_lnUnitLo_add (d := d) (a := 2) (b := 1) (by norm_num) (by norm_num) (by norm_num)
  simp only [lnHi, lnLo]
  nlinarith [Nat.mul_le_mul_left (a / b).log2 h5]

theorem lnLo_le_lnHi (hb : 0 < b) (hba : b ≤ a) : lnLo d a b ≤ lnHi d a b := by
  exact_mod_cast (lnLo_le hb hba).trans (le_lnHi hb hba)

end

end Sys2Proof.Machine
end

