-- ==== Sys2Proof/Laws/Exact.lean ====
section
/-! SUPPORT. The numeric functions are exact (00_scope.md R9): `lnFloor a b x y` is the floor of `(a / b) ln(x / y)`.
The ends of its enclosures agree at some precision because the real is never a positive integer
(41_filter_construct.md R135, 43_filter_union.md R167), which is the irrationality of the powers of e; the bounds on
the three functions follow. -/

namespace Sys2Proof.Machine

/-! ## Searching for a precision -/

theorem settle_of_agree {lo hi : ℕ → ℕ} (n : ℕ) : ∀ d, lo (d + n) = hi (d + n) →
    ∃ e, lo e = hi e ∧ settle lo hi d = some (lo e) := by
  induction n with
  | zero => exact fun d h => ⟨d, h, by rw [settle]; exact if_pos h⟩
  | succ n ih =>
    intro d h
    by_cases hd : lo d = hi d
    · exact ⟨d, hd, by rw [settle, if_pos hd]⟩
    · obtain ⟨e, h1, h2⟩ := ih (d + 1) (by rwa [show d + 1 + n = d + (n + 1) by omega])
      exact ⟨e, h1, by rw [settle, if_neg hd, h2]⟩

/-- Two ends that enclose `v` at every precision and agree at some precision agree on `v`. -/
theorem agreed_eq {lo hi : ℕ → ℕ} {v : ℕ} (hlo : ∀ d, lo d ≤ v) (hhi : ∀ d, v ≤ hi d) (h : ∃ d, lo d = hi d) :
    agreed lo hi = v := by
  have hv : ∀ e, lo e = hi e → lo e = v := fun e he => le_antisymm (hlo e) (he ▸ hhi e)
  unfold agreed
  split
  next h0 => exact hv 0 h0
  next h0 =>
    obtain ⟨d, hd⟩ := h
    obtain ⟨n, rfl⟩ : ∃ n, d = 1 + n := by
      cases d with
      | zero => exact absurd hd h0
      | succ d => exact ⟨d, by omega⟩
    obtain ⟨e, h1, h2⟩ := settle_of_agree n 1 hd
    rw [h2, Option.getD_some, hv e h1]

/-! ## No ties -/

/-- A positive power of e is no ratio of naturals. -/
theorem mul_exp_natCast_ne {a u v : ℕ} (ha : 0 < a) (hu : 0 < u) : (v : ℝ) * Real.exp a ≠ u := by
  intro h
  have hf0 : (Polynomial.X - Polynomial.C (a : ℤ)).eval 0 ≠ 0 := by simp; omega
  have hroot : (a : ℂ) ∈ (Polynomial.X - Polynomial.C (a : ℤ)).aroots ℂ := by
    rw [Polynomial.mem_aroots]
    exact ⟨Polynomial.X_sub_C_ne_zero _, by simp⟩
  obtain ⟨c, hc⟩ := LindemannWeierstrass.exp_polynomial_approx (Polynomial.X - Polynomial.C (a : ℤ)) hf0
  have hlim : Filter.Tendsto (fun q : ℕ => (v : ℝ) * (c ^ (q + 1) / (q.factorial : ℝ))) Filter.atTop (nhds 0) := by
    have h1 := (FloorSemiring.tendsto_pow_div_factorial_atTop c).const_mul ((v : ℝ) * c)
    rw [mul_zero] at h1
    refine h1.congr fun q => ?_
    rw [pow_succ]; ring
  obtain ⟨Q, hQ⟩ := (hlim.eventually (gt_mem_nhds one_pos)).exists_forall_of_atTop
  obtain ⟨q, hq, hprime⟩ := Nat.exists_infinite_primes (Q + u + a + 2)
  obtain ⟨n, hn, gp, -, hle⟩ := hc q (by simp; omega) hprime
  have hsmall := hQ (q - 1) (by omega)
  rw [show q - 1 + 1 = q by omega] at hsmall
  -- the approximation at the root `a` is the integer `v n e^a - q v gp(a)`, over `v`
  have hint : (v : ℂ) * (n • Complex.exp a - q • (Polynomial.aeval (a : ℂ)) gp) =
      ((n * u - q * (v * gp.eval (a : ℤ)) : ℤ) : ℂ) := by
    have he : (v : ℂ) * Complex.exp a = u := by
      have := congrArg (fun r : ℝ => (r : ℂ)) h
      push_cast at this
      exact this
    have hg : (Polynomial.aeval (a : ℂ)) gp = ((gp.eval (a : ℤ) : ℤ) : ℂ) := by
      have := Polynomial.aeval_algebraMap_apply ℂ (a : ℤ) gp
      simpa using this
    rw [hg]
    push_cast
    rw [zsmul_eq_mul, nsmul_eq_mul, ← he]
    ring
  have hlt : ‖((n * u - q * (v * gp.eval (a : ℤ)) : ℤ) : ℂ)‖ < 1 := by
    rw [← hint, norm_mul, Complex.norm_natCast]
    exact lt_of_le_of_lt (mul_le_mul_of_nonneg_left (hle hroot) (Nat.cast_nonneg v)) hsmall
  have hzero : n * u - q * (v * gp.eval (a : ℤ)) = 0 := by
    rw [Complex.norm_intCast] at hlt
    exact Int.abs_lt_one_iff.mp (by exact_mod_cast hlt)
  have hdvd : (q : ℤ) ∣ n * u := ⟨v * gp.eval (a : ℤ), by omega⟩
  rcases (Nat.prime_iff_prime_int.mp hprime).dvd_or_dvd hdvd with h1 | h1
  · exact hn h1
  · exact absurd (Nat.le_of_dvd hu (by exact_mod_cast h1)) (by omega)

section

variable {a b x y : ℕ}

/-- The real `(a / b) ln(x / y)`. -/
noncomputable def lnValue (a b x y : ℕ) : ℝ := (a : ℝ) / b * Real.log ((x : ℝ) / y)

theorem lnValue_nonneg (hy : 0 < y) (hyx : y ≤ x) : 0 ≤ lnValue a b x y := by
  have hy' : (0 : ℝ) < y := by exact_mod_cast hy
  have : 1 ≤ (x : ℝ) / y := by rw [le_div_iff₀ hy']; simpa using (by exact_mod_cast hyx : (y : ℝ) ≤ x)
  exact mul_nonneg (by positivity) (Real.log_nonneg this)

/-- The real is zero or no integer (41_filter_construct.md R135, 43_filter_union.md R167). -/
theorem lnValue_ne_natCast (hb : 0 < b) (hy : 0 < y) (hyx : y ≤ x) {j : ℕ} (hj : 0 < j) : lnValue a b x y ≠ j := by
  intro h
  have hb' : (0 : ℝ) < b := by exact_mod_cast hb
  have hy' : (0 : ℝ) < y := by exact_mod_cast hy
  have hx' : (0 : ℝ) < x := by exact_mod_cast lt_of_lt_of_le hy hyx
  have h1 : Real.log (((x : ℝ) / y) ^ a) = ((b * j : ℕ) : ℝ) := by
    rw [Real.log_pow]
    unfold lnValue at h
    push_cast
    field_simp at h
    linarith
  have h2 : ((x : ℝ) / y) ^ a = Real.exp ((b * j : ℕ) : ℝ) := by
    rw [← h1, Real.exp_log (by positivity)]
  refine mul_exp_natCast_ne (a := b * j) (u := x ^ a) (v := y ^ a) (by positivity) (pow_pos (hy.trans_le hyx) a) ?_
  rw [← h2, div_pow]
  push_cast
  field_simp

/-! ## The ends -/

theorem lnFloorLo_le (hb : 0 < b) (hy : 0 < y) (hyx : y ≤ x) (d : ℕ) : lnFloorLo a b x y d ≤ ⌊lnValue a b x y⌋₊ := by
  refine Nat.le_floor ((natCast_div_le (by have := lnScale_pos d; positivity)).trans ?_)
  have hS : (0 : ℝ) < lnScale d := by exact_mod_cast lnScale_pos d
  have hb' : (0 : ℝ) < b := by exact_mod_cast hb
  push_cast
  rw [div_le_iff₀ (by positivity)]
  have := mul_le_mul_of_nonneg_left (lnLo_le (d := d) hy hyx) (Nat.cast_nonneg (α := ℝ) a)
  refine this.trans (le_of_eq ?_)
  unfold lnValue
  field_simp

theorem lnValue_le (hb : 0 < b) (hy : 0 < y) (hyx : y ≤ x) (d : ℕ) :
    lnValue a b x y ≤ ((a * lnHi d x y : ℕ) : ℝ) / ((b * lnScale d : ℕ) : ℝ) := by
  have hS : (0 : ℝ) < lnScale d := by exact_mod_cast lnScale_pos d
  have hb' : (0 : ℝ) < b := by exact_mod_cast hb
  push_cast
  rw [le_div_iff₀ (by positivity)]
  have := mul_le_mul_of_nonneg_left (le_lnHi (d := d) hy hyx) (Nat.cast_nonneg (α := ℝ) a)
  refine (le_of_eq ?_).trans this
  unfold lnValue
  field_simp

theorem le_lnFloorHi (hb : 0 < b) (hy : 0 < y) (hyx : y ≤ x) (d : ℕ) : ⌊lnValue a b x y⌋₊ ≤ lnFloorHi a b x y d := by
  have h := Nat.floor_mono (lnValue_le (a := a) hb hy hyx d)
  rwa [Nat.floor_div_eq_div] at h

/-- The width of the enclosure, in units of the real. -/
theorem lnHi_div_le (hb : 0 < b) (hy : 0 < y) (hyx : y ≤ x) (d : ℕ) :
    ((a * lnHi d x y : ℕ) : ℝ) / ((b * lnScale d : ℕ) : ℝ) ≤
      ((a * lnLo d x y : ℕ) : ℝ) / ((b * lnScale d : ℕ) : ℝ) +
        ((a * (6 * ((x / y).log2 + 1)) : ℕ) : ℝ) / lnScale d := by
  have hS : (0 : ℝ) < lnScale d := by exact_mod_cast lnScale_pos d
  have hb' : (1 : ℝ) ≤ b := by exact_mod_cast hb
  have h1 : ((a * lnHi d x y : ℕ) : ℝ) ≤ ((a * lnLo d x y + a * (6 * ((x / y).log2 + 1)) : ℕ) : ℝ) := by
    rw [← mul_add]
    exact_mod_cast Nat.mul_le_mul_left a (lnHi_le_lnLo_add hy hyx)
  refine (div_le_div_of_nonneg_right h1 (Nat.cast_nonneg _)).trans ?_
  rw [Nat.cast_add, add_div]
  refine add_le_add_right (div_le_div_of_nonneg_left (Nat.cast_nonneg _) hS ?_) _
  push_cast
  nlinarith

/-- The two floors differ by at most one when `a` is not beyond what the scale carries. -/
theorem lnFloorHi_le (hb : 0 < b) (hy : 0 < y) (hyx : y ≤ x) {d : ℕ}
    (h : a * (6 * ((x / y).log2 + 1)) ≤ 2 ^ 256) : lnFloorHi a b x y d ≤ lnFloorLo a b x y d + 1 := by
  have hS : 2 ^ 256 ≤ lnScale d := Nat.pow_le_pow_right (by norm_num) (Nat.le_mul_of_pos_right _ (Nat.two_pow_pos d))
  have hw : a * lnHi d x y ≤ a * lnLo d x y + b * lnScale d :=
    calc a * lnHi d x y ≤ a * lnLo d x y + a * (6 * ((x / y).log2 + 1)) := by
          rw [← mul_add]
          exact Nat.mul_le_mul_left a (lnHi_le_lnLo_add hy hyx)
      _ ≤ a * lnLo d x y + b * lnScale d := Nat.add_le_add_left ((h.trans hS).trans (Nat.le_mul_of_pos_left _ hb)) _
  exact (Nat.div_le_div_right hw).trans (Nat.add_div_right _ (Nat.mul_pos hb (lnScale_pos d))).le

/-- The ends agree at some precision. -/
theorem lnFloor_settles (hb : 0 < b) (hy : 0 < y) (hyx : y ≤ x) :
    ∃ d, lnFloorLo a b x y d = lnFloorHi a b x y d := by
  set v := lnValue a b x y with hv
  have hv0 : 0 ≤ v := lnValue_nonneg hy hyx
  set j := ⌊v⌋₊ with hj
  have hup : v < j + 1 := Nat.lt_floor_add_one v
  have hlow : j = 0 ∨ (j : ℝ) < v := by
    rcases Nat.eq_zero_or_pos j with h | h
    · exact .inl h
    · exact .inr (lt_of_le_of_ne (Nat.floor_le hv0) fun e => lnValue_ne_natCast hb hy hyx h e.symm)
  obtain ⟨δ, hδ, h1, h2⟩ : ∃ δ : ℝ, 0 < δ ∧ v + δ < j + 1 ∧ (j = 0 ∨ (j : ℝ) ≤ v - δ) := by
    rcases hlow with h | h
    · exact ⟨(j + 1 - v) / 2, by linarith, by linarith, .inl h⟩
    · exact ⟨min ((j + 1 - v) / 2) (v - j), lt_min (by linarith) (by linarith),
        by linarith [min_le_left ((j + 1 - v) / 2) (v - j)], .inr (by linarith [min_le_right ((j + 1 - v) / 2) (v - j)])⟩
  obtain ⟨d, hd⟩ := exists_nat_gt (((a * (6 * ((x / y).log2 + 1)) : ℕ) : ℝ) / δ)
  have hS : (0 : ℝ) < lnScale d := by exact_mod_cast lnScale_pos d
  have hdS : (d : ℝ) ≤ lnScale d := by
    have h3 : d ≤ lnScale d := by
      calc d ≤ 2 ^ d := Nat.lt_two_pow_self.le
        _ ≤ 2 ^ (256 * 2 ^ d) := Nat.pow_le_pow_right (by norm_num) (by have := @Nat.lt_two_pow_self d; omega)
    exact_mod_cast h3
  have hw : ((a * (6 * ((x / y).log2 + 1)) : ℕ) : ℝ) / lnScale d ≤ δ := by
    rw [div_lt_iff₀ hδ] at hd
    rw [div_le_iff₀ hS]
    nlinarith
  have hwidth := lnHi_div_le (a := a) hb hy hyx d
  have hle := lnValue_le (a := a) hb hy hyx d
  have hlo : (((a * lnLo d x y : ℕ) : ℝ) / ((b * lnScale d : ℕ) : ℝ)) ≤ v := by
    have hb' : (0 : ℝ) < b := by exact_mod_cast hb
    push_cast
    rw [div_le_iff₀ (by positivity)]
    have := mul_le_mul_of_nonneg_left (lnLo_le (d := d) hy hyx) (Nat.cast_nonneg (α := ℝ) a)
    refine this.trans (le_of_eq ?_)
    rw [hv]; unfold lnValue
    field_simp
  refine ⟨d, le_antisymm ((lnFloorLo_le hb hy hyx d).trans (le_lnFloorHi hb hy hyx d)) ?_⟩
  have hhi : lnFloorHi a b x y d ≤ j := by
    refine Nat.lt_succ_iff.mp ?_
    have : ((lnFloorHi a b x y d : ℕ) : ℝ) < ((j + 1 : ℕ) : ℝ) := by
      refine lt_of_le_of_lt (natCast_div_le (by have := lnScale_pos d; positivity)) ?_
      push_cast at *
      linarith
    exact_mod_cast this
  refine hhi.trans ?_
  rcases h2 with h2 | h2
  · omega
  · have : (j : ℝ) ≤ ((a * lnLo d x y : ℕ) : ℝ) / ((b * lnScale d : ℕ) : ℝ) := by linarith
    have h3 := Nat.le_floor this
    rwa [Nat.floor_div_eq_div] at h3

/-- The function is exact. -/
theorem lnFloor_eq (hb : 0 < b) (hy : 0 < y) (hyx : y ≤ x) : lnFloor a b x y = ⌊lnValue a b x y⌋₊ :=
  agreed_eq (lnFloorLo_le hb hy hyx) (le_lnFloorHi hb hy hyx) (lnFloor_settles hb hy hyx)

end

/-! ## The three functions -/

theorem sizeWords_eq (n : ℕ) {p : ℕ} (h : 2 ≤ p) : sizeWords n p = ⌊(325 / 10000 : ℝ) * Real.log p * n⌋₊ := by
  rw [sizeWords, lnFloor_eq (by norm_num) (by norm_num) (by omega), lnValue]
  congr 1
  push_cast
  rw [div_one]
  ring

theorem sizeProbes_eq {p : ℕ} (h : 2 ≤ p) : sizeProbes p = ⌊(14 / 10 : ℝ) * Real.log p⌋₊ + 1 := by
  rw [sizeProbes, lnFloor_eq (by norm_num) (by norm_num) (by omega), lnValue]
  congr 2
  push_cast
  rw [div_one]
  ring

theorem est_eq {m k x : ℕ} (hk : 0 < k) (hx : x < m) :
    est m k x = ⌊((m : ℝ) / k) * Real.log ((m : ℝ) / ((m : ℝ) - x))⌋₊ := by
  rw [est, lnFloor_eq hk (by omega) (by omega), lnValue, Nat.cast_sub hx.le]

/-- A logarithm of a natural below a power of two. -/
theorem log_natCast_le {a e : ℕ} (h : a ≤ 2 ^ e) : Real.log a ≤ e * 0.6931471808 := by
  rcases Nat.eq_zero_or_pos a with rfl | ha
  · simp only [Nat.cast_zero, Real.log_zero]; positivity
  · have h1 : (a : ℝ) ≤ 2 ^ e := by exact_mod_cast h
    refine (Real.log_le_log (by exact_mod_cast ha) h1).trans ?_
    rw [Real.log_pow]
    exact mul_le_mul_of_nonneg_left Real.log_two_lt_d9.le (Nat.cast_nonneg e)

theorem sizeProbes_pos (p : ℕ) : 1 ≤ sizeProbes p := Nat.le_add_left _ _

/-- The probe count of every operand FNEW can have (41_filter_construct.md R133). -/
theorem sizeProbes_le {p : ℕ} (h2 : 2 ≤ p) (h : p < 2 ^ 64) : sizeProbes p ≤ 63 := by
  rw [sizeProbes_eq h2, Nat.succ_le_succ_iff, ← Nat.lt_succ_iff, Nat.floor_lt (by positivity)]
  have := log_natCast_le h.le
  push_cast at *
  linarith

/-- Every estimate is a legal count (00_scope.md R8). -/
theorem est_lt {m k x : ℕ} (hk : 0 < k) (hx : x < m) (hm : m ≤ 2 ^ 54) : est m k x < 2 ^ 60 := by
  have hmx : (1 : ℝ) ≤ (m : ℝ) - x := by
    have : ((x + 1 : ℕ) : ℝ) ≤ m := by exact_mod_cast hx
    push_cast at this
    linarith
  have hm0 : (0 : ℝ) < m := by exact_mod_cast (by omega : 0 < m)
  have hk1 : (1 : ℝ) ≤ k := by exact_mod_cast hk
  have hm' : (m : ℝ) ≤ 2 ^ 54 := by exact_mod_cast hm
  have hratio : 1 ≤ (m : ℝ) / ((m : ℝ) - x) := by
    rw [le_div_iff₀ (by linarith)]
    linarith [Nat.cast_nonneg (α := ℝ) x]
  have hlog : Real.log ((m : ℝ) / ((m : ℝ) - x)) ≤ 38 := by
    refine (Real.log_le_log (by linarith) (div_le_self hm0.le hmx)).trans ((log_natCast_le hm).trans ?_)
    norm_num
  rw [est_eq hk hx, Nat.floor_lt (mul_nonneg (by positivity) (Real.log_nonneg hratio))]
  have hlog0 := Real.log_nonneg hratio
  calc (m : ℝ) / k * Real.log ((m : ℝ) / ((m : ℝ) - x)) ≤ 2 ^ 54 * 38 :=
        mul_le_mul ((div_le_self hm0.le hk1).trans hm') hlog hlog0 (by positivity)
    _ < ((2 ^ 60 : ℕ) : ℝ) := by norm_num

end Sys2Proof.Machine
end

