-- ==== Sys2Proof/Laws/State.lean ====
section
/-! SUPPORT. One lemma per field per update of `State`, and the laws of reading a slot after writing one. -/

namespace Sys2Proof.Machine

variable (s : State) (n m : SlotNum) (f : Filter) (r : Response) (p : Packet) (w : Word)

/-! ## emit -/

@[simp] theorem State.emit_maxlgw : (s.emit r).maxlgw = s.maxlgw := rfl
@[simp] theorem State.emit_responseRoom : (s.emit r).responseRoom = s.responseRoom := rfl
@[simp] theorem State.emit_commandRoom : (s.emit r).commandRoom = s.commandRoom := rfl
@[simp] theorem State.emit_slots : (s.emit r).slots = s.slots := rfl
@[simp] theorem State.emit_resetIn : (s.emit r).resetIn = s.resetIn := rfl
@[simp] theorem State.emit_incoming : (s.emit r).incoming = s.incoming := rfl
@[simp] theorem State.emit_commands : (s.emit r).commands = s.commands := rfl
@[simp] theorem State.emit_responses : (s.emit r).responses = s.responses ++ [r] := rfl
@[simp] theorem State.emit_nslots : (s.emit r).nslots = s.nslots := rfl
@[simp] theorem State.emit_slot : (s.emit r).slot n = s.slot n := rfl
@[simp] theorem slotExists_emit : slotExists (s.emit r) n = slotExists s n := rfl

/-! ## setSlot -/

@[simp] theorem State.setSlot_maxlgw : (s.setSlot n f).maxlgw = s.maxlgw := rfl
@[simp] theorem State.setSlot_responseRoom : (s.setSlot n f).responseRoom = s.responseRoom := rfl
@[simp] theorem State.setSlot_commandRoom : (s.setSlot n f).commandRoom = s.commandRoom := rfl
@[simp] theorem State.setSlot_slots : (s.setSlot n f).slots = s.slots.set n.toNat (some f) := rfl
@[simp] theorem State.setSlot_resetIn : (s.setSlot n f).resetIn = s.resetIn := rfl
@[simp] theorem State.setSlot_incoming : (s.setSlot n f).incoming = s.incoming := rfl
@[simp] theorem State.setSlot_commands : (s.setSlot n f).commands = s.commands := rfl
@[simp] theorem State.setSlot_responses : (s.setSlot n f).responses = s.responses := rfl
@[simp] theorem State.setSlot_nslots : (s.setSlot n f).nslots = s.nslots := by simp [State.nslots]
@[simp] theorem slotExists_setSlot : slotExists (s.setSlot n f) m = slotExists s m := by simp [slotExists]

theorem slotExists_iff : slotExists s n = true ↔ n.toNat < s.slots.length := decide_eq_true_iff

/-- A filter put into an existing slot is the slot's filter. -/
theorem State.slot_setSlot_same (h : slotExists s n = true) : (s.setSlot n f).slot n = some f := by
  have hn := (slotExists_iff s n).mp h
  simp [State.slot, List.getD, hn]

/-- Slots do not alias (10_state.md R20): writing one leaves every other as it was. -/
theorem State.slot_setSlot_ne (h : m ≠ n) : (s.setSlot n f).slot m = s.slot m := by
  have hn : n.toNat ≠ m.toNat := fun e => h (BitVec.eq_of_toNat_eq e.symm)
  simp [State.slot, List.getD, hn]

/-- A VALID slot exists. -/
theorem slotExists_of_slot (h : s.slot n = some f) : slotExists s n = true := by
  by_contra hn
  have : s.slots.length ≤ n.toNat := Nat.not_lt.mp fun hlt => hn ((slotExists_iff s n).mpr hlt)
  simp [State.slot, List.getD, this] at h

/-- The filter of a VALID slot is one of the slots. -/
theorem State.mem_of_slot (h : s.slot n = some f) : some f ∈ s.slots := by
  have hn := (slotExists_iff s n).mp (slotExists_of_slot s n f h)
  have : s.slots[n.toNat] = some f := by simpa [State.slot, List.getD, hn] using h
  exact this ▸ List.getElem_mem hn

/-! ## The command channel and reset -/

@[simp] theorem State.cleared_maxlgw : s.cleared.maxlgw = s.maxlgw := rfl
@[simp] theorem State.cleared_responseRoom : s.cleared.responseRoom = s.responseRoom := rfl
@[simp] theorem State.cleared_commandRoom : s.cleared.commandRoom = s.commandRoom := rfl
@[simp] theorem State.cleared_slots : s.cleared.slots = List.replicate s.nslots none := rfl
@[simp] theorem State.cleared_resetIn : s.cleared.resetIn = s.resetIn := rfl
@[simp] theorem State.cleared_incoming : s.cleared.incoming = [] := rfl
@[simp] theorem State.cleared_commands : s.cleared.commands = [] := rfl
@[simp] theorem State.cleared_responses : s.cleared.responses = [] := rfl
@[simp] theorem State.cleared_nslots : s.cleared.nslots = s.nslots := by simp [State.nslots]

@[simp] theorem pushCommand_maxlgw : (pushCommand s p).maxlgw = s.maxlgw := rfl
@[simp] theorem pushCommand_responseRoom :
    (pushCommand s p).responseRoom = max s.responseRoom s.responses.length := rfl
@[simp] theorem pushCommand_commandRoom : (pushCommand s p).commandRoom = s.commandRoom := rfl
@[simp] theorem pushCommand_takesCommand : (pushCommand s p).takesCommand = true :=
  decide_eq_true (Nat.le_max_right _ _)
@[simp] theorem pushCommand_slots : (pushCommand s p).slots = s.slots := rfl
@[simp] theorem pushCommand_resetIn : (pushCommand s p).resetIn = false := rfl
@[simp] theorem pushCommand_incoming : (pushCommand s p).incoming = s.incoming := rfl
@[simp] theorem pushCommand_commands : (pushCommand s p).commands = p :: s.commands := rfl
@[simp] theorem pushCommand_responses : (pushCommand s p).responses = s.responses := rfl

variable (last : Bool)

@[simp] theorem receiveWord_maxlgw : (receiveWord s w last).maxlgw = s.maxlgw := by cases last <;> rfl
@[simp] theorem receiveWord_responseRoom : (receiveWord s w last).responseRoom = s.responseRoom := by
  cases last <;> rfl
@[simp] theorem receiveWord_commandRoom : (receiveWord s w last).commandRoom = s.commandRoom := by cases last <;> rfl
@[simp] theorem receiveWord_slots : (receiveWord s w last).slots = s.slots := by cases last <;> rfl
@[simp] theorem receiveWord_resetIn : (receiveWord s w last).resetIn = s.resetIn := by cases last <;> rfl
@[simp] theorem receiveWord_responses : (receiveWord s w last).responses = s.responses := by cases last <;> rfl
@[simp] theorem receiveWord_incoming : (receiveWord s w last).incoming = if last then [] else s.incoming ++ [w] := by
  cases last <;> rfl
@[simp] theorem receiveWord_commands :
    (receiveWord s w last).commands = if last then s.commands ++ [packetOf s.incoming w] else s.commands := by
  cases last <;> rfl

theorem takesCommand_iff : s.takesCommand = true ↔ s.responses.length ≤ s.responseRoom := decide_eq_true_iff
theorem takesWord_iff : s.takesWord = true ↔ s.resetIn = false ∧ s.commands.length ≤ s.commandRoom := by
  simp [State.takesWord]

@[simp] theorem fetch_nil (h : s.commands = []) : fetch s = none := by simp [fetch, h]
@[simp] theorem fetch_cons {rest : List Packet} (h : s.commands = p :: rest) (hr : s.takesCommand = true) :
    fetch s = some (p, { s with commands := rest }) := by simp [fetch, h, hr]
@[simp] theorem fetch_stalled (hr : s.takesCommand = false) : fetch s = none := by
  unfold fetch
  cases s.commands <;> simp [hr]

end Sys2Proof.Machine
end

