-- ==== Sys2Proof/Laws/Exec.lean ====
section
/-! SUPPORT. What each meaning answers, one lemma per path of it, and what any command can do to the state: append a
response, or put a filter into its slot and append a response. Provers cite these instead of unfolding a meaning. -/

namespace Sys2Proof.Machine

/-! ## The shared operations -/

theorem respond_eq (o : Op) (sat : Bool) (ws : List Word) (s : State) :
    respond o sat ws s = .next (s.emit ⟨statusWord o.code sat okCode, ws⟩) := rfl

theorem raise_eq (o : Op) (e : Err) (s : State) :
    raise o e s = .next (s.emit ⟨statusWord o.code false (errCode e), []⟩) := rfl

theorem raiseFor_eq (opc : BitVec 8) (e : Err) (s : State) :
    raiseFor opc e s = .next (s.emit ⟨statusWord opc false (errCode e), []⟩) := rfl

variable {s : State} {fd fa fb : SlotNum} {f a b : Filter} {msg : List Byte} {n p W k c : Word} {ws : List Word}

/-! ## FNEW -/

theorem execFnew_errSlot (h : slotExists s fd = false) : execFnew fd n p s = raise .fnew .errSlot s := by
  simp [execFnew, h]

theorem execFnew_errParam (h : slotExists s fd = true) (hp : rateLegal p = false) :
    execFnew fd n p s = raise .fnew .errParam s := by simp [execFnew, h, hp]

theorem execFnew_errCapacity (h : slotExists s fd = true) (hp : rateLegal p = true)
    (hn : 2 ^ s.maxlgw < sizeWords n.toNat p.toNat) : execFnew fd n p s = raise .fnew .errCapacity s := by
  simp [execFnew, h, hp, hn]

theorem execFnew_ok (h : slotExists s fd = true) (hp : rateLegal p = true)
    (hn : sizeWords n.toNat p.toNat ≤ 2 ^ s.maxlgw) :
    execFnew fd n p s = respond .fnew false [] (s.setSlot fd (newFilter s.maxlgw n.toNat p.toNat)) := by
  simp [execFnew, h, hp, Nat.not_lt.mpr hn]

theorem execFnew_cases (s : State) (fd : SlotNum) (n p : Word) :
    (∃ e ∈ possibleErrors .fnew, execFnew fd n p s = raise .fnew e s) ∨
      (slotExists s fd = true ∧ rateLegal p = true ∧ sizeWords n.toNat p.toNat ≤ 2 ^ s.maxlgw ∧
        execFnew fd n p s = respond .fnew false [] (s.setSlot fd (newFilter s.maxlgw n.toNat p.toNat))) := by
  cases h : slotExists s fd with
  | false => exact .inl ⟨_, by decide, execFnew_errSlot h⟩
  | true =>
    cases hp : rateLegal p with
    | false => exact .inl ⟨_, by decide, execFnew_errParam h hp⟩
    | true =>
      rcases Nat.lt_or_ge (2 ^ s.maxlgw) (sizeWords n.toNat p.toNat) with hn | hn
      · exact .inl ⟨_, by decide, execFnew_errCapacity h hp hn⟩
      · exact .inr ⟨rfl, rfl, hn, execFnew_ok h hp hn⟩

/-! ## FADD -/

theorem execFadd_errSlot (h : slotExists s fd = false) : execFadd fd msg s = raise .fadd .errSlot s := by
  simp [execFadd, h]

theorem execFadd_errNofilter (h : slotExists s fd = true) (hf : s.slot fd = none) :
    execFadd fd msg s = raise .fadd .errNofilter s := by simp [execFadd, h, hf]

theorem execFadd_ok (hf : s.slot fd = some f) :
    execFadd fd msg s =
      respond .fadd (addTo f msg).2.2 [flagWord (addTo f msg).2.1] (s.setSlot fd (addTo f msg).1) := by
  simp [execFadd, slotExists_of_slot s fd f hf, hf]

theorem execFadd_cases (s : State) (fd : SlotNum) (msg : List Byte) :
    (∃ e ∈ possibleErrors .fadd, execFadd fd msg s = raise .fadd e s) ∨
      (∃ f, s.slot fd = some f ∧ execFadd fd msg s =
        respond .fadd (addTo f msg).2.2 [flagWord (addTo f msg).2.1] (s.setSlot fd (addTo f msg).1)) := by
  cases h : slotExists s fd with
  | false => exact .inl ⟨_, by decide, execFadd_errSlot h⟩
  | true =>
    cases hf : s.slot fd with
    | none => exact .inl ⟨_, by decide, execFadd_errNofilter h hf⟩
    | some f => exact .inr ⟨f, rfl, execFadd_ok hf⟩

/-! ## FTEST -/

theorem execFtest_errSlot (h : slotExists s fd = false) : execFtest fd msg s = raise .ftest .errSlot s := by
  simp [execFtest, h]

theorem execFtest_errNofilter (h : slotExists s fd = true) (hf : s.slot fd = none) :
    execFtest fd msg s = raise .ftest .errNofilter s := by simp [execFtest, h, hf]

theorem execFtest_ok (hf : s.slot fd = some f) :
    execFtest fd msg s = respond .ftest false [flagWord (testAll (positions f msg) f.words)] s := by
  simp [execFtest, slotExists_of_slot s fd f hf, hf]

/-! ## FCOUNT -/

theorem execFcount_errSlot (h : slotExists s fd = false) : execFcount fd s = raise .fcount .errSlot s := by
  simp [execFcount, h]

theorem execFcount_errNofilter (h : slotExists s fd = true) (hf : s.slot fd = none) :
    execFcount fd s = raise .fcount .errNofilter s := by simp [execFcount, h, hf]

theorem execFcount_ok (hf : s.slot fd = some f) : execFcount fd s = respond .fcount false [f.count] s := by
  simp [execFcount, slotExists_of_slot s fd f hf, hf]

/-! ## FUNION -/

theorem execFunion_errSlot (h : (slotExists s fd && slotExists s fa && slotExists s fb) = false) :
    execFunion fd fa fb s = raise .funion .errSlot s := by simp only [execFunion, h]; rfl

theorem execFunion_errNofilter (h : (slotExists s fd && slotExists s fa && slotExists s fb) = true)
    (hf : s.slot fa = none ∨ s.slot fb = none) :
    execFunion fd fa fb s = raise .funion .errNofilter s := by
  simp only [execFunion, h, if_true]
  rcases hf with hf | hf
  · rw [hf]
  · rw [hf]; cases s.slot fa <;> rfl

theorem execFunion_errAlias (h : slotExists s fd = true) (ha : s.slot fa = some a) (hb : s.slot fb = some b)
    (hal : (fd == fa || fd == fb) = true) : execFunion fd fa fb s = raise .funion .errAlias s := by
  simp only [execFunion, h, slotExists_of_slot s fa a ha, slotExists_of_slot s fb b hb, ha, hb, hal]
  rfl

theorem execFunion_errIncompat (h : slotExists s fd = true) (ha : s.slot fa = some a) (hb : s.slot fb = some b)
    (hal : (fd == fa || fd == fb) = false) (hc : compatible a b = false) :
    execFunion fd fa fb s = raise .funion .errIncompat s := by
  simp only [execFunion, h, slotExists_of_slot s fa a ha, slotExists_of_slot s fb b hb, ha, hb, hal, hc]
  rfl

theorem execFunion_ok (h : slotExists s fd = true) (ha : s.slot fa = some a) (hb : s.slot fb = some b)
    (hal : (fd == fa || fd == fb) = false) (hc : compatible a b = true) :
    execFunion fd fa fb s = respond .funion (unionOf a b).2 [] (s.setSlot fd (unionOf a b).1) := by
  simp only [execFunion, h, slotExists_of_slot s fa a ha, slotExists_of_slot s fb b hb, ha, hb, hal, hc]
  rfl

theorem execFunion_cases (s : State) (fd fa fb : SlotNum) :
    (∃ e ∈ possibleErrors .funion, execFunion fd fa fb s = raise .funion e s) ∨
      (∃ a b, slotExists s fd = true ∧ s.slot fa = some a ∧ s.slot fb = some b ∧
        (fd == fa || fd == fb) = false ∧ compatible a b = true ∧
        execFunion fd fa fb s = respond .funion (unionOf a b).2 [] (s.setSlot fd (unionOf a b).1)) := by
  cases h : (slotExists s fd && slotExists s fa && slotExists s fb) with
  | false => exact .inl ⟨_, by decide, execFunion_errSlot h⟩
  | true =>
    have hd : slotExists s fd = true := by simp only [Bool.and_eq_true] at h; exact h.1.1
    cases ha : s.slot fa with
    | none => exact .inl ⟨_, by decide, execFunion_errNofilter h (.inl ha)⟩
    | some a =>
      cases hb : s.slot fb with
      | none => exact .inl ⟨_, by decide, execFunion_errNofilter h (.inr hb)⟩
      | some b =>
        cases hal : (fd == fa || fd == fb) with
        | true => exact .inl ⟨_, by decide, execFunion_errAlias hd ha hb hal⟩
        | false =>
          cases hc : compatible a b with
          | false => exact .inl ⟨_, by decide, execFunion_errIncompat hd ha hb hal hc⟩
          | true => exact .inr ⟨a, b, hd, rfl, rfl, rfl, hc, execFunion_ok hd ha hb hal hc⟩

/-! ## FLOAD -/

theorem execFload_errSlot (h : slotExists s fd = false) : execFload fd W k c ws s = raise .fload .errSlot s := by
  simp [execFload, h]

theorem execFload_errParam (h : slotExists s fd = true) (hl : loadOperandsLegal W k c = false) :
    execFload fd W k c ws s = raise .fload .errParam s := by simp [execFload, h, hl]

theorem execFload_errCapacity (h : slotExists s fd = true) (hl : loadOperandsLegal W k c = true)
    (hW : 2 ^ s.maxlgw < W.toNat) : execFload fd W k c ws s = raise .fload .errCapacity s := by
  simp [execFload, h, hl, hW]

theorem execFload_ok (h : slotExists s fd = true) (hl : loadOperandsLegal W k c = true)
    (hW : W.toNat ≤ 2 ^ s.maxlgw) :
    execFload fd W k c ws s = respond .fload false [] (s.setSlot fd (loadedFilter W k c ws)) := by
  simp [execFload, h, hl, Nat.not_lt.mpr hW]

theorem execFload_cases (s : State) (fd : SlotNum) (W k c : Word) (ws : List Word) :
    (∃ e ∈ possibleErrors .fload, execFload fd W k c ws s = raise .fload e s) ∨
      (slotExists s fd = true ∧ loadOperandsLegal W k c = true ∧ W.toNat ≤ 2 ^ s.maxlgw ∧
        execFload fd W k c ws s = respond .fload false [] (s.setSlot fd (loadedFilter W k c ws))) := by
  cases h : slotExists s fd with
  | false => exact .inl ⟨_, by decide, execFload_errSlot h⟩
  | true =>
    cases hl : loadOperandsLegal W k c with
    | false => exact .inl ⟨_, by decide, execFload_errParam h hl⟩
    | true =>
      rcases Nat.lt_or_ge (2 ^ s.maxlgw) W.toNat with hW | hW
      · exact .inl ⟨_, by decide, execFload_errCapacity h hl hW⟩
      · exact .inr ⟨rfl, rfl, hW, execFload_ok h hl hW⟩

/-! ## FSTORE -/

theorem execFstore_errSlot (h : slotExists s fd = false) : execFstore fd s = raise .fstore .errSlot s := by
  simp [execFstore, h]

theorem execFstore_errNofilter (h : slotExists s fd = true) (hf : s.slot fd = none) :
    execFstore fd s = raise .fstore .errNofilter s := by simp [execFstore, h, hf]

theorem execFstore_ok (hf : s.slot fd = some f) :
    execFstore fd s = respond .fstore false (storedWords f) s := by
  simp [execFstore, slotExists_of_slot s fd f hf, hf]

/-! ## Any command -/

/-- What any command answers: one of its possible errors, or OK from the state as it is, or OK after putting a filter
into the slot it may write (10_state.md R29). SAT comes from FADD and FUNION only, and an EMPTY slot is filled only by
a command that replaces its filter. -/
theorem exec_cases (i : Instr) (s : State) :
    (∃ e ∈ possibleErrors i.op, exec i s = raise i.op e s) ∨
    (∃ ws, writtenSlot i = none ∧ exec i s = respond i.op false ws s) ∨
    (∃ fd f sat ws, writtenSlot i = some fd ∧ slotExists s fd = true ∧
      (sat = true → i.op = .fadd ∨ i.op = .funion) ∧ (s.slot fd = none → replacedSlot i = some fd) ∧
      exec i s = respond i.op sat ws (s.setSlot fd f)) := by
  cases i with
  | hash m => exact .inr (.inl ⟨_, rfl, rfl⟩)
  | fnew fd n p =>
    rcases execFnew_cases s fd n p with ⟨e, he, h⟩ | ⟨h1, _, _, h⟩
    · exact .inl ⟨e, he, h⟩
    · exact .inr (.inr ⟨fd, _, _, _, rfl, h1, by simp, fun _ => rfl, h⟩)
  | fadd fd m =>
    rcases execFadd_cases s fd m with ⟨e, he, h⟩ | ⟨f, hf, h⟩
    · exact .inl ⟨e, he, h⟩
    · exact .inr (.inr ⟨fd, _, _, _, rfl, slotExists_of_slot s fd f hf, fun _ => .inl rfl, by simp [hf], h⟩)
  | ftest fd m =>
    cases h : slotExists s fd with
    | false => exact .inl ⟨_, by simp [possibleErrors, Instr.op], execFtest_errSlot h⟩
    | true =>
      cases hf : s.slot fd with
      | none => exact .inl ⟨_, by simp [possibleErrors, Instr.op], execFtest_errNofilter h hf⟩
      | some f => exact .inr (.inl ⟨_, rfl, execFtest_ok hf⟩)
  | fcount fd =>
    cases h : slotExists s fd with
    | false => exact .inl ⟨_, by simp [possibleErrors, Instr.op], execFcount_errSlot h⟩
    | true =>
      cases hf : s.slot fd with
      | none => exact .inl ⟨_, by simp [possibleErrors, Instr.op], execFcount_errNofilter h hf⟩
      | some f => exact .inr (.inl ⟨_, rfl, execFcount_ok hf⟩)
  | funion fd fa fb =>
    rcases execFunion_cases s fd fa fb with ⟨e, he, h⟩ | ⟨a, b, h1, _, _, _, _, h⟩
    · exact .inl ⟨e, he, h⟩
    · exact .inr (.inr ⟨fd, _, _, _, rfl, h1, fun _ => .inr rfl, fun _ => rfl, h⟩)
  | fload fd W k c ws =>
    rcases execFload_cases s fd W k c ws with ⟨e, he, h⟩ | ⟨h1, _, _, h⟩
    · exact .inl ⟨e, he, h⟩
    · exact .inr (.inr ⟨fd, _, _, _, rfl, h1, by simp, fun _ => rfl, h⟩)
  | fstore fd =>
    cases h : slotExists s fd with
    | false => exact .inl ⟨_, by simp [possibleErrors, Instr.op], execFstore_errSlot h⟩
    | true =>
      cases hf : s.slot fd with
      | none => exact .inl ⟨_, by simp [possibleErrors, Instr.op], execFstore_errNofilter h hf⟩
      | some f => exact .inr (.inl ⟨_, rfl, execFstore_ok hf⟩)

/-- Whatever a command does, it answers, and it appends one response; beyond that it can only have put a filter into
the slot it may write. -/
theorem exec_effect (i : Instr) (s : State) : ∃ r, (exec i s = .next (s.emit r)) ∨
    (∃ fd f, writtenSlot i = some fd ∧ slotExists s fd = true ∧ exec i s = .next ((s.setSlot fd f).emit r)) := by
  rcases exec_cases i s with ⟨e, _, h⟩ | ⟨ws, _, h⟩ | ⟨fd, f, sat, ws, hw, hx, _, _, h⟩
  · exact ⟨_, .inl h⟩
  · exact ⟨_, .inl h⟩
  · exact ⟨_, .inr ⟨fd, f, hw, hx, h⟩⟩

/-- A command sees the slots and `MAXLGW` only: what stands in the channels changes neither its response nor its effect
on the slots (70_reset_and_hazards.md R226). -/
theorem exec_transfer (i : Instr) {s s' : State} (hs : s.slots = s'.slots) (hm : s.maxlgw = s'.maxlgw) :
    ∃ l r, exec i s = .next ({ s with slots := l }.emit r) ∧ exec i s' = .next ({ s' with slots := l }.emit r) := by
  have hx (n) : slotExists s' n = slotExists s n :=
    congrArg (fun l => decide (n.toNat < List.length l)) hs.symm
  have hn (n) : s'.slot n = s.slot n := by simp only [State.slot, hs]
  have hw (n f) (r : Response) : (s'.setSlot n f).emit r = { s' with slots := (s.setSlot n f).slots }.emit r := by
    simp only [State.setSlot, hs]
  have he (r : Response) : s'.emit r = { s' with slots := s.slots }.emit r := by rw [hs]
  cases i <;>
    simp only [exec, execHash, execFnew, execFadd, execFtest, execFcount, execFunion, execFload, execFstore, hx, hn,
      ← hm, raise, raiseFor, respond, hw, he] <;>
    (repeat' split) <;>
    exact ⟨_, _, rfl, rfl⟩

/-- The same of any packet. -/
theorem execPacket_transfer (p : Packet) {s s' : State} (hs : s.slots = s'.slots) (hm : s.maxlgw = s'.maxlgw) :
    ∃ l r, execPacket p s = .next ({ s with slots := l }.emit r) ∧
      execPacket p s' = .next ({ s' with slots := l }.emit r) := by
  unfold execPacket
  cases decode p with
  | ok i => exact exec_transfer i hs hm
  | error e => exact ⟨s.slots, _, rfl, by rw [hs]; rfl⟩

/-! ## Steps -/

/-- A step with a packet waiting and room for its response executes that packet. -/
theorem step_eq_execPacket {p : Packet} {rest : List Packet} (hr : s.resetIn = false) (hc : s.commands = p :: rest)
    (hs : s.responses.length ≤ s.responseRoom) : step s = execPacket p { s with commands := rest } := by
  simp [step, hr, fetch_cons s p hc ((takesCommand_iff s).mpr hs)]

/-- With too many responses waiting the block holds back (70_reset_and_hazards.md R226). -/
theorem step_stalled (hr : s.resetIn = false) (hs : s.responseRoom < s.responses.length) : step s = .next s := by
  have : s.takesCommand = false := decide_eq_false (Nat.not_le.mpr hs)
  simp [step, hr, fetch_stalled s this]

/-- What a step can do: clear the block while reset is asserted; hold the state, with nothing to execute or too many
responses waiting; or execute the oldest packet, which appends a response and can change the slots. -/
theorem step_cases {s t : State} (h : step s = .next t) :
    (s.resetIn = true ∧ t = s.cleared) ∨
    (s.resetIn = false ∧ t = s ∧ (s.commands = [] ∨ s.responseRoom < s.responses.length)) ∨
    (s.resetIn = false ∧ ∃ p rest l r, s.commands = p :: rest ∧ s.responses.length ≤ s.responseRoom ∧
      execPacket p { s with commands := rest } = .next t ∧ t = { s with commands := rest, slots := l }.emit r) := by
  rcases Bool.eq_false_or_eq_true s.resetIn with hr | hr
  · rw [step, if_pos hr] at h
    exact .inl ⟨hr, (Host.Outcome.next.inj h).symm⟩
  rcases Nat.lt_or_ge s.responseRoom s.responses.length with hs | hs
  · rw [step_stalled hr hs] at h
    exact .inr (.inl ⟨hr, (Host.Outcome.next.inj h).symm, .inr hs⟩)
  by_cases hc : s.commands = []
  · simp only [step, hr, fetch_nil s hc] at h
    exact .inr (.inl ⟨hr, (Host.Outcome.next.inj h).symm, .inl hc⟩)
  obtain ⟨p, rest, hc⟩ := List.exists_cons_of_ne_nil hc
  rw [step_eq_execPacket hr hc hs] at h
  obtain ⟨l, r, h1, -⟩ := execPacket_transfer p (s := { s with commands := rest }) (s' := s) rfl rfl
  exact .inr (.inr ⟨hr, p, rest, l, r, hc, hs, h, Host.Outcome.next.inj (h.symm.trans h1)⟩)

/-- Every step answers a next state. -/
theorem step_next (s : State) : ∃ t, step s = .next t := by
  unfold step
  split
  · exact ⟨_, rfl⟩
  · split
    · exact ⟨_, rfl⟩
    · rename_i p s' _
      obtain ⟨l, r, h, -⟩ := execPacket_transfer p (s := s') (s' := s') rfl rfl
      exact ⟨_, h⟩

/-! ## Any number of packets -/

/-- Packets executed one after the other append one response each and can change the slots; what stands in the channels
changes neither. -/
theorem answerAll_transfer (ps : List Packet) {s s' : State} (hs : s.slots = s'.slots) (hm : s.maxlgw = s'.maxlgw) :
    ∃ l rs, rs.length = ps.length ∧
      answerAll ps s = .next { s with slots := l, responses := s.responses ++ rs } ∧
      answerAll ps s' = .next { s' with slots := l, responses := s'.responses ++ rs } := by
  induction ps generalizing s s' with
  | nil => exact ⟨s.slots, [], rfl, by simp [answerAll], by simp [answerAll, hs]⟩
  | cons p ps ih =>
    obtain ⟨l, r, h, h'⟩ := execPacket_transfer p hs hm
    obtain ⟨l2, rs, hl, h2, h2'⟩ := ih (s := { s with slots := l }.emit r) (s' := { s' with slots := l }.emit r) rfl hm
    refine ⟨l2, r :: rs, by simp [hl], ?_, ?_⟩
    · simp only [answerAll, h, h2]; simp [State.emit]
    · simp only [answerAll, h', h2']; simp [State.emit]

theorem answerAll_append (ps qs : List Packet) {s t : State} (h : answerAll ps s = .next t) :
    answerAll (ps ++ qs) s = answerAll qs t := by
  induction ps generalizing s with
  | nil => cases h; rfl
  | cons p ps ih =>
    simp only [List.cons_append, answerAll] at h ⊢
    cases hp : execPacket p s with
    | next u => rw [hp] at h; exact ih h
    | fault r => cases r
    | refused r => rw [hp] at h; cases h

/-! ## The state once every packet that waits has been answered -/

/-- The commands that wait append one response each, whatever the channels hold and whatever their room. -/
theorem settled_transfer (s : State) :
    ∃ l rs, rs.length = s.commands.length ∧ ∀ rr cr inc q,
      settled { s with responseRoom := rr, commandRoom := cr, incoming := inc, responses := q } =
        .next { s with responseRoom := rr, commandRoom := cr, incoming := inc, commands := [], slots := l,
                       responses := q ++ rs } := by
  obtain ⟨l, rs, hl, h, -⟩ := answerAll_transfer s.commands (s := s) (s' := s) rfl rfl
  refine ⟨l, rs, hl, fun rr cr inc q => ?_⟩
  obtain ⟨l', rs', -, h1, h2⟩ := answerAll_transfer s.commands (s := s)
    (s' := { s with responseRoom := rr, commandRoom := cr, incoming := inc, commands := [], responses := q }) rfl rfl
  rw [h] at h1
  simp only [Host.Outcome.next.injEq, State.mk.injEq, List.append_cancel_left_eq, true_and] at h1
  obtain ⟨rfl, rfl⟩ := h1
  exact h2

/-- A step changes nothing in the end. -/
theorem settled_step {s t : State} (hr : s.resetIn = false) (h : step s = .next t) : settled t = settled s := by
  obtain ⟨hr', -⟩ | ⟨-, rfl, -⟩ | ⟨-, p, rest, l, r, hc, -, he, rfl⟩ := step_cases h
  · simp [hr] at hr'
  · rfl
  · obtain ⟨l', r', h1, h2⟩ := execPacket_transfer p (s := { s with commands := rest })
      (s' := { s with commands := [] }) rfl rfl
    rw [he] at h1
    simp only [Host.Outcome.next.injEq, State.emit, State.mk.injEq, List.append_cancel_left_eq, List.cons.injEq,
      true_and, and_true] at h1
    obtain ⟨rfl, rfl⟩ := h1
    simp only [settled, hc, answerAll, h2]
    rfl

end Sys2Proof.Machine
end

