-- ==== Sys2Proof/Laws/Memory.lean ====
section
/-! SUPPORT. The laws of word arrays: read after write, the canonical form kept by every operation, and equality of
arrays that read the same. -/

namespace Sys2Proof.Machine

/-! ## The canonical form, one cell at a time -/

@[simp] theorem Memory.wfFrom_nil (lo W : Nat) : Memory.wfFrom lo W [] = true := rfl

theorem Memory.wfFrom_cons {lo W j : Nat} {w : Word} {m : Memory} :
    Memory.wfFrom lo W ((j, w) :: m) = true ↔ lo ≤ j ∧ j < W ∧ w ≠ 0#64 ∧ Memory.wfFrom (j + 1) W m = true := by
  simp [Memory.wfFrom, and_assoc]

theorem Memory.wfFrom_mono {lo lo' W : Nat} (h : lo' ≤ lo) {m : Memory} (hm : Memory.wfFrom lo W m = true) :
    Memory.wfFrom lo' W m = true := by
  cases m with
  | nil => rfl
  | cons c m =>
    obtain ⟨h1, h2, h3, h4⟩ := Memory.wfFrom_cons.mp hm
    exact Memory.wfFrom_cons.mpr ⟨by omega, h2, h3, h4⟩

/-- Below the first index an array in canonical form reads zero. -/
theorem Memory.read_lt {lo W i : Nat} {m : Memory} (hm : Memory.wfFrom lo W m = true) (h : i < lo) :
    Memory.read m i = 0#64 := by
  induction m generalizing lo with
  | nil => rfl
  | cons c m ih =>
    obtain ⟨h1, _, _, h4⟩ := Memory.wfFrom_cons.mp hm
    have : i ≠ c.1 := by omega
    simp [Memory.read, this, ih h4 (by omega)]

/-- At and beyond `W` an array in canonical form reads zero. -/
theorem Memory.read_ge {lo W i : Nat} {m : Memory} (hm : Memory.wfFrom lo W m = true) (h : W ≤ i) :
    Memory.read m i = 0#64 := by
  induction m generalizing lo with
  | nil => rfl
  | cons c m ih =>
    obtain ⟨_, h2, _, h4⟩ := Memory.wfFrom_cons.mp hm
    have : i ≠ c.1 := by omega
    simp [Memory.read, this, ih h4]

/-! ## cons -/

theorem Memory.read_cons {lo W i j : Nat} {v : Word} {m : Memory} (hm : Memory.wfFrom lo W m = true) (h : i < lo) :
    Memory.read (Memory.cons i v m) j = if j = i then v else Memory.read m j := by
  by_cases hv : v = 0#64
  · by_cases hj : j = i
    · simp [Memory.cons, hv, hj, Memory.read_lt hm h]
    · simp [Memory.cons, hv, hj]
  · simp [Memory.cons, hv, Memory.read]

theorem Memory.wfFrom_consCell {lo W i : Nat} {v : Word} {m : Memory} (hm : Memory.wfFrom (i + 1) W m = true)
    (h : lo ≤ i) (hi : i < W) : Memory.wfFrom lo W (Memory.cons i v m) = true := by
  by_cases hv : v = 0#64
  · simpa [Memory.cons, hv] using Memory.wfFrom_mono (by omega) hm
  · simpa [Memory.cons, hv] using Memory.wfFrom_cons.mpr ⟨h, hi, hv, hm⟩

/-! ## write -/

theorem Memory.wfFrom_write {lo W i : Nat} {v : Word} {m : Memory} (hm : Memory.wfFrom lo W m = true)
    (h : lo ≤ i) (hi : i < W) : Memory.wfFrom lo W (Memory.write m i v) = true := by
  induction m generalizing lo with
  | nil => exact Memory.wfFrom_consCell rfl h hi
  | cons c m ih =>
    obtain ⟨h1, h2, h3, h4⟩ := Memory.wfFrom_cons.mp hm
    simp only [Memory.write]
    split
    · exact Memory.wfFrom_consCell (Memory.wfFrom_cons.mpr ⟨by omega, h2, h3, h4⟩) h hi
    · split
      next hij => exact Memory.wfFrom_consCell (hij ▸ h4) h hi
      next hlt hij => exact Memory.wfFrom_cons.mpr ⟨h1, h2, h3, ih h4 (by omega)⟩

/-- A write within the array keeps the canonical form. -/
theorem Memory.wf_write {W i : Nat} {v : Word} {m : Memory} (hm : Memory.wf W m = true) (hi : i < W) :
    Memory.wf W (Memory.write m i v) = true := Memory.wfFrom_write hm (Nat.zero_le i) hi

theorem Memory.read_write_from {lo W i j : Nat} {v : Word} {m : Memory} (hm : Memory.wfFrom lo W m = true) :
    Memory.read (Memory.write m i v) j = if j = i then v else Memory.read m j := by
  induction m generalizing lo with
  | nil => simpa [Memory.write] using Memory.read_cons (W := W) (lo := i + 1) (m := []) rfl (by omega)
  | cons c m ih =>
    obtain ⟨h1, h2, h3, h4⟩ := Memory.wfFrom_cons.mp hm
    simp only [Memory.write]
    split
    next hlt =>
      exact Memory.read_cons (lo := c.1) (Memory.wfFrom_cons.mpr ⟨le_refl _, h2, h3, h4⟩) hlt
    next hlt =>
      split
      next hij =>
        rw [Memory.read_cons h4 (by omega)]
        by_cases hj : j = i
        · simp [hj]
        · simp [Memory.read, hj, hij ▸ hj]
      next hij =>
        by_cases hj : j = c.1
        · have : j ≠ i := by omega
          simp [Memory.read, hj, Ne.symm hij]
        · simp [Memory.read, hj, ih h4]

/-- Read after write (20_memory.md R52): the written word is read back, every other word is as before. -/
theorem Memory.read_write {W i j : Nat} {v : Word} {m : Memory} (hm : Memory.wf W m = true) :
    Memory.read (Memory.write m i v) j = if j = i then v else Memory.read m j := Memory.read_write_from hm

/-- The same, with no canonical form asked for, when the word written is not zero. -/
theorem Memory.read_write_of_ne_zero {i j : Nat} {v : Word} {m : Memory} (hv : v ≠ 0#64) :
    Memory.read (Memory.write m i v) j = if j = i then v else Memory.read m j := by
  induction m with
  | nil => simp [Memory.write, Memory.cons, hv, Memory.read]
  | cons c m ih =>
    simp only [Memory.write]
    split
    · simp [Memory.cons, hv, Memory.read]
    · split
      next hij =>
        by_cases hj : j = i
        · simp [Memory.cons, hv, Memory.read, hj]
        · simp [Memory.cons, hv, Memory.read, hj, hij ▸ hj]
      next hij =>
        by_cases hj : j = c.1
        · simp [Memory.read, hj, Ne.symm hij]
        · simp [Memory.read, hj, ih]

/-! ## The whole array -/

/-- Arrays in canonical form that read the same are equal. -/
theorem Memory.eq_of_read {lo W : Nat} {a b : Memory} (ha : Memory.wfFrom lo W a = true)
    (hb : Memory.wfFrom lo W b = true) (h : ∀ i, Memory.read a i = Memory.read b i) : a = b := by
  induction a generalizing lo b with
  | nil =>
    cases b with
    | nil => rfl
    | cons d b =>
      obtain ⟨_, _, h3, _⟩ := Memory.wfFrom_cons.mp hb
      exact absurd (h d.1).symm (by simpa [Memory.read] using h3)
  | cons c a ih =>
    obtain ⟨h1, h2, h3, h4⟩ := Memory.wfFrom_cons.mp ha
    cases b with
    | nil => exact absurd (h c.1) (by simpa [Memory.read] using h3)
    | cons d b =>
      obtain ⟨g1, g2, g3, g4⟩ := Memory.wfFrom_cons.mp hb
      have hcd : c.1 = d.1 := by
        rcases Nat.lt_trichotomy c.1 d.1 with hlt | heq | hgt
        · have := h c.1
          have hne : c.1 ≠ d.1 := by omega
          simp [Memory.read, hne, Memory.read_lt g4 (show c.1 < d.1 + 1 by omega)] at this
          exact absurd this h3
        · exact heq
        · have := h d.1
          have hne : d.1 ≠ c.1 := by omega
          simp [Memory.read, hne, Memory.read_lt h4 (show d.1 < c.1 + 1 by omega)] at this
          exact absurd this.symm g3
      have hw : c.2 = d.2 := by
        have := h c.1
        simpa [Memory.read, hcd] using this
      have htail : a = b := by
        refine ih h4 (hcd ▸ g4) fun i => ?_
        by_cases hi : i = c.1
        · rw [hi, Memory.read_lt h4 (by omega), Memory.read_lt g4 (by omega)]
        · have := h i
          simpa [Memory.read, hi, hcd ▸ hi] using this
      rw [htail, Prod.ext hcd hw]

theorem Memory.read_ofWords (ws : List Word) (lo j : Nat) :
    Memory.read (Memory.ofWords lo ws) j = if lo ≤ j then ws.getD (j - lo) 0#64 else 0#64 := by
  induction ws generalizing lo with
  | nil => simp [Memory.ofWords, Memory.read]
  | cons w ws ih =>
    by_cases hw : w = 0#64
    · simp only [Memory.ofWords, Memory.cons, hw, if_true, ih]
      rcases Nat.lt_trichotomy lo j with h | h | h
      · obtain ⟨d, rfl⟩ : ∃ d, j = lo + 1 + d := ⟨j - (lo + 1), by omega⟩
        have : lo + 1 + d - lo = d + 1 := by omega
        simp [this, show lo ≤ lo + 1 + d by omega]
      · subst h; simp
      · simp [show ¬ lo + 1 ≤ j by omega, show ¬ lo ≤ j by omega]
    · simp only [Memory.ofWords, Memory.cons, hw, if_false, Memory.read, ih]
      rcases Nat.lt_trichotomy lo j with h | h | h
      · obtain ⟨d, rfl⟩ : ∃ d, j = lo + 1 + d := ⟨j - (lo + 1), by omega⟩
        have : lo + 1 + d - lo = d + 1 := by omega
        simp [this, show lo ≤ lo + 1 + d by omega, show lo + 1 + d ≠ lo by omega]
      · subst h; simp
      · simp [show ¬ lo + 1 ≤ j by omega, show ¬ lo ≤ j by omega, show j ≠ lo by omega]

theorem Memory.wfFrom_ofWords (ws : List Word) (lo W : Nat) (h : lo + ws.length ≤ W) :
    Memory.wfFrom lo W (Memory.ofWords lo ws) = true := by
  induction ws generalizing lo with
  | nil => rfl
  | cons w ws ih =>
    simp only [List.length_cons] at h
    exact Memory.wfFrom_consCell (ih (lo + 1) (by omega)) (le_refl _) (by omega)

/-- Loading `W` words gives an array in canonical form (44_filter_transfer.md R180). -/
theorem Memory.wf_ofWords {W : Nat} {ws : List Word} (h : ws.length = W) :
    Memory.wf W (Memory.ofWords 0 ws) = true := Memory.wfFrom_ofWords ws 0 W (by omega)

@[simp] theorem Memory.length_dump (W : Nat) (m : Memory) : (Memory.dump W m).length = W := by simp [Memory.dump]

theorem Memory.getD_dump (W i : Nat) (m : Memory) :
    (Memory.dump W m).getD i 0#64 = if i < W then Memory.read m i else 0#64 := by
  by_cases h : i < W
  · simp [Memory.dump, h]
  · simp [Memory.dump, h]

/-- Storing an array and loading it gives it back (44_filter_transfer.md R185). -/
theorem Memory.ofWords_dump {W : Nat} {m : Memory} (hm : Memory.wf W m = true) :
    Memory.ofWords 0 (Memory.dump W m) = m := by
  refine Memory.eq_of_read (Memory.wf_ofWords (Memory.length_dump W m)) hm fun i => ?_
  rw [Memory.read_ofWords]
  simp only [Nat.zero_le, if_true, Nat.sub_zero, Memory.getD_dump]
  split
  · rfl
  · exact (Memory.read_ge hm (by omega)).symm

/-! ## Bits -/

theorem Memory.setBit_word_ne_zero (w : Word) (b : Nat) (hb : b < 64) : (w ||| (1#64 <<< b)) ≠ 0#64 := by
  intro h
  have := congrArg (fun x => x.getLsbD b) h
  simp [hb] at this

/-- Reading a bit after setting one (20_memory.md R52; 42_filter_insert_test.md R142, R143). -/
theorem Memory.bit_setBit (m : Memory) (n i : Nat) :
    Memory.bit (Memory.setBit m n) i = (Memory.bit m i || decide (i = n)) := by
  have hn : n % 64 < 64 := Nat.mod_lt _ (by omega)
  have hi : i % 64 < 64 := Nat.mod_lt _ (by omega)
  unfold Memory.setBit Memory.bit
  rw [Memory.read_write_of_ne_zero (Memory.setBit_word_ne_zero _ _ hn)]
  by_cases hq : i / 64 = n / 64
  · by_cases hr : i % 64 = n % 64
    · have : i = n := by omega
      subst this
      simp [hn]
    · have hne : i ≠ n := fun e => hr (e ▸ rfl)
      have : (1#64 <<< (n % 64)).getLsbD (i % 64) = false := by
        simp [hi]
        omega
      simp [hq, hne, this]
  · have hne : i ≠ n := fun e => hq (e ▸ rfl)
    simp [hq, hne]

theorem Memory.wf_setBit {W n : Nat} {m : Memory} (hm : Memory.wf W m = true) (hn : n < 64 * W) :
    Memory.wf W (Memory.setBit m n) = true := Memory.wf_write hm (by omega)

/-! ## The union of two arrays (43_filter_union.md R163) -/

theorem Memory.wf_orInto {lo W : Nat} {a b : Memory} (ha : Memory.wf W a = true)
    (hb : Memory.wfFrom lo W b = true) : Memory.wf W (Memory.orInto a b) = true := by
  induction b generalizing lo with
  | nil => exact ha
  | cons c b ih =>
    obtain ⟨_, h2, _, h4⟩ := Memory.wfFrom_cons.mp hb
    exact Memory.wf_write (ih h4) h2

theorem Memory.read_orInto {lo W : Nat} {a b : Memory} (ha : Memory.wf W a = true)
    (hb : Memory.wfFrom lo W b = true) (i : Nat) :
    Memory.read (Memory.orInto a b) i = Memory.read a i ||| Memory.read b i := by
  induction b generalizing lo with
  | nil => simp [Memory.orInto, Memory.read]
  | cons c b ih =>
    obtain ⟨_, _, _, h4⟩ := Memory.wfFrom_cons.mp hb
    simp only [Memory.orInto, Memory.orWord, Memory.read_write (Memory.wf_orInto ha h4), Memory.read]
    by_cases hi : i = c.1
    · subst hi
      simp [ih h4, Memory.read_lt h4 (Nat.lt_succ_self _)]
    · simp [hi, ih h4]

end Sys2Proof.Machine
end

