-- ==== Sys2Proof/Laws/Probe.lean ====
section
/-! SUPPORT. The probe loop: its positions are in range, and setting bits as it goes is setting them all at once
(42_filter_insert_test.md R140, R141, R147). -/

namespace Sys2Proof.Machine

theorem toNat_trunc {j : ℕ} (hj : j + 6 ≤ 64) : (trunc (2 ^ j)).toNat = 2 ^ (j + 6) - 1 := by
  have h1 : 64 * 2 ^ j = 2 ^ (j + 6) := by rw [pow_add]; ring
  have h2 : 2 ^ (j + 6) ≤ 2 ^ 64 := Nat.pow_le_pow_right (by norm_num) hj
  have h3 : 0 < 2 ^ (j + 6) := by positivity
  rw [trunc, h1, BitVec.toNat_ofNat, Nat.mod_eq_of_lt (by omega)]

/-- Masking with `TRUNC` is reducing modulo m (R141). -/
theorem toNat_and_trunc {W j : ℕ} (hW : W = 2 ^ j) (hj : j + 6 ≤ 64) (p : Word) :
    (p &&& trunc W).toNat = p.toNat % (64 * W) := by
  subst hW
  rw [BitVec.toNat_and, toNat_trunc hj, Nat.and_two_pow_sub_one_eq_mod]
  congr 1
  rw [pow_add]; ring

theorem probePositions_lt {W j : ℕ} (hW : W = 2 ^ j) (hj : j + 6 ≤ 64) (q : Word) (k : ℕ) (p : Word) :
    ∀ n ∈ probePositions (trunc W) q k p, n < 64 * W := by
  induction k generalizing p with
  | zero => simp [probePositions]
  | succ k ih =>
    intro n hn
    simp only [probePositions, List.mem_cons] at hn
    rcases hn with rfl | hn
    · rw [toNat_and_trunc hW hj]
      exact Nat.mod_lt _ (by rw [hW]; positivity)
    · exact ih _ n hn

/-- No out-of-range position can be presented (20_memory.md R51). -/
theorem positions_lt {maxlgw : ℕ} {f : Filter} (hf : f.Legal maxlgw) (hm : Config.MaxlgwLegal maxlgw)
    (msg : List Byte) : ∀ n ∈ positions f msg, n < 64 * f.W := by
  obtain ⟨j, hj, hW⟩ := hf.pow2
  exact probePositions_lt hW (by omega) _ _ _

@[simp] theorem length_probePositions (mask q : Word) (k : ℕ) (p : Word) :
    (probePositions mask q k p).length = k := by
  induction k generalizing p with
  | zero => rfl
  | succ k ih => simp [probePositions, ih]

/-- The positions depend on W and the probe count only, not on the filter's contents (R141). -/
theorem positions_congr {f g : Filter} (hW : f.W = g.W) (hk : f.probes = g.probes) (msg : List Byte) :
    positions f msg = positions g msg := by simp [positions, hW, hk]

theorem insertLoop_bit (ns : List ℕ) (m : Memory) (b : Bool) (i : ℕ) :
    Memory.bit (insertLoop ns m b).1 i = (Memory.bit m i || decide (i ∈ ns)) := by
  induction ns generalizing m b with
  | nil => simp [insertLoop]
  | cons n ns ih =>
    simp only [insertLoop]
    split
    next h =>
      rw [ih]
      by_cases hi : i = n
      · subst hi; simp [h]
      · simp [hi]
    next h => rw [ih, Memory.bit_setBit]; simp [Bool.or_assoc]

/-- HASALL ends 0 exactly when some probed position held 0 before the command (R147). -/
theorem insertLoop_hasAll (ns : List ℕ) (m : Memory) (b : Bool) :
    (insertLoop ns m b).2 = (b && ns.all (Memory.bit m)) := by
  induction ns generalizing m b with
  | nil => simp [insertLoop]
  | cons n ns ih =>
    simp only [insertLoop]
    split
    next h => rw [ih]; simp [h]
    next h => rw [ih]; simp [h]

theorem wf_insertLoop {W : ℕ} (ns : List ℕ) (m : Memory) (b : Bool) (hm : Memory.wf W m = true)
    (h : ∀ n ∈ ns, n < 64 * W) : Memory.wf W (insertLoop ns m b).1 = true := by
  induction ns generalizing m b with
  | nil => exact hm
  | cons n ns ih =>
    simp only [List.mem_cons, forall_eq_or_imp] at h
    simp only [insertLoop]
    split
    · exact ih _ _ hm h.2
    · exact ih _ _ (Memory.wf_setBit hm h.1) h.2

theorem insertLoop_of_all (ns : List ℕ) (m : Memory) (b : Bool) (h : ns.all (Memory.bit m) = true) :
    insertLoop ns m b = (m, b) := by
  induction ns with
  | nil => rfl
  | cons n ns ih =>
    simp only [List.all_cons, Bool.and_eq_true] at h
    simp [insertLoop, h.1, ih h.2]

/-! ## The filter after an FADD -/

@[simp] theorem addTo_W (f : Filter) (msg : List Byte) : (addTo f msg).1.W = f.W := rfl
@[simp] theorem addTo_probes (f : Filter) (msg : List Byte) : (addTo f msg).1.probes = f.probes := rfl

theorem addTo_bit (f : Filter) (msg : List Byte) (i : ℕ) :
    Memory.bit (addTo f msg).1.words i = (Memory.bit f.words i || decide (i ∈ positions f msg)) :=
  insertLoop_bit _ _ _ _

theorem addTo_hasAll (f : Filter) (msg : List Byte) :
    (addTo f msg).2.1 = testAll (positions f msg) f.words := by
  simp [addTo, insertLoop_hasAll, testAll]

theorem addTo_count (f : Filter) (msg : List Byte) :
    ((addTo f msg).1.count, (addTo f msg).2.2) = countAfterAdd (testAll (positions f msg) f.words) f.count := by
  rw [← addTo_hasAll]; rfl

theorem countAfterAdd_le {c : Word} (b : Bool) (h : c.toNat ≤ IMAX.toNat) :
    c.toNat ≤ (countAfterAdd b c).1.toNat ∧ (countAfterAdd b c).1.toNat ≤ IMAX.toNat := by
  unfold countAfterAdd
  split
  · exact ⟨le_refl _, h⟩
  · split
    · exact ⟨le_refl _, h⟩
    next hne =>
      have hi : IMAX.toNat = 2 ^ 63 - 1 := by decide
      have hlt : c.toNat ≠ IMAX.toNat := fun e => hne (BitVec.eq_of_toNat_eq e)
      have : (c + 1#64).toNat = c.toNat + 1 := by
        rw [BitVec.toNat_add]
        simp only [BitVec.toNat_ofNat]
        omega
      simp only [this]
      omega

theorem addTo_legal {maxlgw : ℕ} {f : Filter} (hf : f.Legal maxlgw) (hm : Config.MaxlgwLegal maxlgw)
    (msg : List Byte) : (addTo f msg).1.Legal maxlgw where
  pow2 := hf.pow2
  probes := hf.probes
  count := (countAfterAdd_le _ hf.count).2
  words := wf_insertLoop _ _ _ hf.words (positions_lt hf hm msg)

end Sys2Proof.Machine
end

