-- ==== Sys2Proof/Laws/Filter.lean ====
section
/-! SUPPORT. The filters FNEW, FUNION and FLOAD put into a slot are legal (10_state.md R26), and the word count and
the population count are what the spec says. -/

namespace Sys2Proof.Machine

/-! ## The word count (41_filter_construct.md R132) -/

theorem growW_spec {fuel minWords i : ℕ} (h : minWords ≤ 2 ^ (i + fuel)) (hlow : ∀ e, e < i → 2 ^ e < max 1 minWords) :
    ∃ j, j ≤ i + fuel ∧ growW fuel minWords (2 ^ i) = 2 ^ j ∧ max 1 minWords ≤ 2 ^ j ∧
      ∀ e, e < j → 2 ^ e < max 1 minWords := by
  induction fuel generalizing i with
  | zero =>
    refine ⟨i, le_refl _, rfl, ?_, hlow⟩
    have : 1 ≤ 2 ^ i := Nat.one_le_two_pow
    simp only [Nat.add_zero] at h
    omega
  | succ fuel ih =>
    simp only [growW]
    have h1 : 1 ≤ 2 ^ i := Nat.one_le_two_pow
    split
    next hlt =>
      rw [show 2 * 2 ^ i = 2 ^ (i + 1) by rw [pow_succ]; ring]
      obtain ⟨j, hj, hr⟩ := ih (i := i + 1) (by rw [show i + 1 + fuel = i + (fuel + 1) by omega]; exact h)
        (fun e he => by
          rcases Nat.lt_succ_iff_lt_or_eq.mp he with he | rfl
          · exact hlow e he
          · omega)
      exact ⟨j, by omega, hr⟩
    next hge => exact ⟨i, by omega, rfl, by omega, hlow⟩

/-- `W` is the least power of two that is at least `max(1, minWords)`, and it fits the slot. -/
theorem wordCount_spec {maxlgw minWords : ℕ} (h : minWords ≤ 2 ^ maxlgw) :
    ∃ j, j ≤ maxlgw ∧ wordCount maxlgw minWords = 2 ^ j ∧ max 1 minWords ≤ 2 ^ j ∧
      ∀ e, e < j → 2 ^ e < max 1 minWords := by
  obtain ⟨j, hj, hr⟩ := growW_spec (fuel := maxlgw) (i := 0) (by simpa using h) (by simp)
  exact ⟨j, by omega, hr⟩

theorem toNat_newFilter_probes {maxlgw n p : ℕ} (h2 : 2 ≤ p) (hp : p < 2 ^ 64) :
    (newFilter maxlgw n p).probes.toNat = sizeProbes p := by
  have := sizeProbes_le h2 hp
  simp only [newFilter, BitVec.toNat_ofNat]
  omega

theorem newFilter_legal {maxlgw n p : ℕ} (h2 : 2 ≤ p) (hp : p < 2 ^ 64) (hn : sizeWords n p ≤ 2 ^ maxlgw) :
    (newFilter maxlgw n p).Legal maxlgw where
  pow2 := by
    obtain ⟨j, hj, hW, _⟩ := wordCount_spec hn
    exact ⟨j, hj, hW⟩
  probes := by
    intro h
    have h1 := toNat_newFilter_probes (maxlgw := maxlgw) (n := n) h2 hp
    have h3 := sizeProbes_pos p
    rw [h] at h1
    simp at h1
    omega
  count := by simp [newFilter]
  words := rfl

/-! ## Operands of FLOAD (44_filter_transfer.md R181) -/

theorem isPowerOfTwo_iff {W : ℕ} : isPowerOfTwo W = true ↔ ∃ j, W = 2 ^ j := by
  simp only [isPowerOfTwo, Bool.and_eq_true, bne_iff_ne, beq_iff_eq]
  constructor
  · rintro ⟨_, h⟩
    exact ⟨_, h.symm⟩
  · rintro ⟨j, rfl⟩
    exact ⟨by positivity, by rw [Nat.log2_two_pow]⟩

theorem loadOperandsLegal_iff {W k c : Word} : loadOperandsLegal W k c = true ↔
    (∃ j, W.toNat = 2 ^ j) ∧ (k.toNat ≠ 0 ∧ k.toNat < 2 ^ 32) ∧ c.toNat < 2 ^ 63 := by
  have hk : k ≠ 0#64 ↔ k.toNat ≠ 0 := by
    rw [ne_eq, ← BitVec.toNat_inj]; simp
  simp only [loadOperandsLegal, probesLegal, countLegal, Bool.and_eq_true, isPowerOfTwo_iff, decide_eq_true_eq,
    bne_iff_ne, hk, and_assoc]

theorem loadedFilter_legal {maxlgw : ℕ} {W k c : Word} {ws : List Word} (hl : loadOperandsLegal W k c = true)
    (hW : W.toNat ≤ 2 ^ maxlgw) (hws : ws.length = W.toNat) : (loadedFilter W k c ws).Legal maxlgw where
  pow2 := by
    obtain ⟨⟨j, hj⟩, _⟩ := loadOperandsLegal_iff.mp hl
    refine ⟨j, ?_, hj⟩
    rw [hj] at hW
    exact (Nat.pow_le_pow_iff_right (by norm_num)).mp hW
  probes := by
    obtain ⟨_, ⟨h1, h2⟩, _⟩ := loadOperandsLegal_iff.mp hl
    intro h
    have := congrArg BitVec.toNat h
    simp [loadedFilter] at this
    omega
  count := by
    obtain ⟨_, _, h⟩ := loadOperandsLegal_iff.mp hl
    have hi : IMAX.toNat = 2 ^ 63 - 1 := by decide
    simp only [loadedFilter]
    omega
  words := Memory.wf_ofWords hws

/-! ## The population count (43_filter_union.md R164, R165) -/

theorem popcount_eq_sum (w : Word) : popcount w = ∑ b ∈ Finset.range 64, (w.getLsbD b).toNat := by
  have h : ∀ n, (List.range n).countP (fun b => w.getLsbD b) = ∑ b ∈ Finset.range n, (w.getLsbD b).toNat := by
    intro n
    induction n with
    | zero => rfl
    | succ n ih =>
      rw [List.range_succ, List.countP_append, Finset.sum_range_succ, ih]
      cases h : w.getLsbD n <;> simp [h]
  exact h 64

@[simp] theorem popcount_zero : popcount 0#64 = 0 := by decide

theorem popcount_le (w : Word) : popcount w ≤ 64 := by
  unfold popcount
  exact List.countP_le_length.trans (by simp)

/-- `X` is the sum over the words 0 to W - 1. -/
theorem setBits_eq_sum {lo W : ℕ} {m : Memory} (hm : Memory.wfFrom lo W m = true) :
    Memory.setBits m = ∑ J ∈ Finset.range W, popcount (Memory.read m J) := by
  induction m generalizing lo with
  | nil => simp [Memory.setBits, Memory.read]
  | cons c m ih =>
    obtain ⟨h1, h2, h3, h4⟩ := Memory.wfFrom_cons.mp hm
    have hrest : ∀ J, popcount (Memory.read (c :: m) J) =
        (if J = c.1 then popcount c.2 else 0) + popcount (Memory.read m J) := by
      intro J
      by_cases hJ : J = c.1
      · subst hJ
        simp [Memory.read, Memory.read_lt h4 (Nat.lt_succ_self _)]
      · simp [Memory.read, hJ]
    simp only [Memory.setBits, ih h4, hrest, Finset.sum_add_distrib]
    rw [Finset.sum_ite_eq' (Finset.range W) c.1 (fun _ => popcount c.2)]
    simp [h2]

theorem setBits_le {lo W : ℕ} {m : Memory} (hm : Memory.wfFrom lo W m = true) : Memory.setBits m ≤ 64 * W := by
  rw [setBits_eq_sum hm]
  calc ∑ J ∈ Finset.range W, popcount (Memory.read m J) ≤ ∑ _J ∈ Finset.range W, 64 :=
        Finset.sum_le_sum fun J _ => popcount_le _
    _ = 64 * W := by simp [mul_comm]

/-! ## The union (43_filter_union.md R163 to R168) -/

theorem compatible_iff {a b : Filter} : compatible a b = true ↔ a.W = b.W ∧ a.probes = b.probes := by
  simp [compatible]

theorem unionCount_le {W k x : ℕ} (hk : 0 < k) (hx : x ≤ 64 * W) (hm : 64 * W ≤ 2 ^ 54) :
    (unionCount W k x).1.toNat ≤ IMAX.toNat := by
  unfold unionCount
  split
  · exact le_refl _
  next hne =>
    have h := est_lt (m := 64 * W) (k := k) (x := x) hk (by omega) hm
    have hi : IMAX.toNat = 2 ^ 63 - 1 := by decide
    simp only [BitVec.toNat_ofNat]
    omega

theorem legal_bits_le {maxlgw : ℕ} {f : Filter} (hf : f.Legal maxlgw) (hm : Config.MaxlgwLegal maxlgw) :
    64 * f.W ≤ 2 ^ 54 := by
  obtain ⟨j, hj, hW⟩ := hf.pow2
  have : 2 ^ j ≤ 2 ^ 48 := Nat.pow_le_pow_right (by norm_num) (by omega)
  omega

theorem legal_probes_pos {maxlgw : ℕ} {f : Filter} (hf : f.Legal maxlgw) : 0 < f.probes.toNat := by
  rcases Nat.eq_zero_or_pos f.probes.toNat with h | h
  · exact absurd (BitVec.eq_of_toNat_eq (by simpa using h)) hf.probes
  · exact h

theorem wf_unionOf {maxlgw : ℕ} {a b : Filter} (ha : a.Legal maxlgw) (hb : b.Legal maxlgw) (hW : a.W = b.W) :
    Memory.wf a.W (Memory.orInto a.words b.words) = true := Memory.wf_orInto ha.words (hW ▸ hb.words)

theorem unionOf_legal {maxlgw : ℕ} {a b : Filter} (ha : a.Legal maxlgw) (hb : b.Legal maxlgw)
    (hm : Config.MaxlgwLegal maxlgw) (hc : compatible a b = true) : (unionOf a b).1.Legal maxlgw where
  pow2 := ha.pow2
  probes := ha.probes
  count := unionCount_le (legal_probes_pos ha)
    (setBits_le (wf_unionOf ha hb (compatible_iff.mp hc).1)) (legal_bits_le ha hm)
  words := wf_unionOf ha hb (compatible_iff.mp hc).1

end Sys2Proof.Machine
end

