-- ==== Sys2Proof/Laws/PerInstr.lean ====
section
/-! SUPPORT. Statements about the instruction as syntax, one lemma per constructor of `Instr`. Family `EncodedLength`:
the packet the encoder writes for a well-formed instruction has the length its format requires (30_encoding.md R72). -/

namespace Sys2Proof.Laws

/-- The encoded packet of a well-formed instruction passes the decoder's length check. -/
def EncodedLength.Statement (i : Instr) : Prop :=
  i.wellFormed = true → lengthOk i.op.format (encode i).body = true

/-- The words after the header of a format M packet. -/
theorem lengthOk_encodeMessage (msg : List Byte) (h : messageFits msg = true) :
    lengthOk .M (encodeMessage msg) = true := by
  have hlt : msg.length < 2 ^ 64 := of_decide_eq_true h
  have hL : (BitVec.ofNat 64 msg.length).toNat = msg.length := Nat.mod_eq_of_lt hlt
  simp only [lengthOk, encodeMessage, bodyWords, payloadWords_eq, hL, List.length_cons, length_packWords,
    beq_iff_eq, Option.some.injEq]
  omega

theorem EncodedLength.hash (msg : List Byte) : EncodedLength.Statement (.hash msg) := lengthOk_encodeMessage msg

theorem EncodedLength.fnew (fd : SlotNum) (n p : Word) : EncodedLength.Statement (.fnew fd n p) := fun _ => rfl

theorem EncodedLength.fadd (fd : SlotNum) (msg : List Byte) : EncodedLength.Statement (.fadd fd msg) :=
  lengthOk_encodeMessage msg

theorem EncodedLength.ftest (fd : SlotNum) (msg : List Byte) : EncodedLength.Statement (.ftest fd msg) :=
  lengthOk_encodeMessage msg

theorem EncodedLength.fcount (fd : SlotNum) : EncodedLength.Statement (.fcount fd) := fun _ => rfl

theorem EncodedLength.funion (fd fa fb : SlotNum) : EncodedLength.Statement (.funion fd fa fb) := fun _ => rfl

theorem EncodedLength.fload (fd : SlotNum) (W probes count : Word) (words : List Word) :
    EncodedLength.Statement (.fload fd W probes count words) := by
  intro h
  have hlen : words.length = W.toNat := of_decide_eq_true h
  simp only [lengthOk, bodyWords, encode, Instr.op, Op.format, List.length_cons, hlen, beq_iff_eq, Option.some.injEq]
  omega

theorem EncodedLength.fstore (fd : SlotNum) : EncodedLength.Statement (.fstore fd) := fun _ => rfl

end Sys2Proof.Laws
end

