-- ==== Sys2Proof/Machine/Asm.lean ====
section
/-! DEFINITION. The line syntax of 30_encoding.md R86 for commands and responses, written out from terms. It is a
way of writing only: nothing of the machine depends on it. A message is written in the hex-bytes form, operand words
in hex. -/

namespace Sys2Proof.Machine

/-- A byte as two hex digits. -/
def byteText (b : Byte) : String := String.ofList [Nat.digitChar (b.toNat / 16), Nat.digitChar (b.toNat % 16)]

/-- A word as 16 hex digits, bit 63 leftmost (00_scope.md R10). -/
def wordDigits (w : Word) : String :=
  String.ofList ((List.range 16).map (fun i => Nat.digitChar (w.toNat / 16 ^ (15 - i) % 16)))

/-- An operand word, as `0x` and 16 hex digits. -/
def wordText (w : Word) : String := "0x" ++ wordDigits w

/-- A slot number in decimal with the letter f. -/
def slotText (n : SlotNum) : String :=
  if n.toNat < 10 then "f" ++ String.ofList [Nat.digitChar n.toNat]
  else "f1" ++ String.ofList [Nat.digitChar (n.toNat - 10)]

/-- A message as hex bytes in order. -/
def messageText (msg : List Byte) : String := "x\"" ++ String.join (msg.map byteText) ++ "\""

/-- A command line. -/
def asmText : Instr → String
  | .hash msg => "HASH " ++ messageText msg
  | .fnew fd n p => "FNEW " ++ slotText fd ++ ", " ++ wordText n ++ ", " ++ wordText p
  | .fadd fd msg => "FADD " ++ slotText fd ++ ", " ++ messageText msg
  | .ftest fd msg => "FTEST " ++ slotText fd ++ ", " ++ messageText msg
  | .fcount fd => "FCOUNT " ++ slotText fd
  | .funion fd fa fb => "FUNION " ++ slotText fd ++ ", " ++ slotText fa ++ ", " ++ slotText fb
  | .fload fd W k c ws =>
    "FLOAD " ++ slotText fd ++ ", " ++ wordText W ++ ", " ++ wordText k ++ ", " ++ wordText c ++ ", [" ++
      ", ".intercalate (ws.map wordText) ++ "]"
  | .fstore fd => "FSTORE " ++ slotText fd

/-- The name of an error (60_exceptions.md R191). -/
def errText : Err → String
  | .errIllegal => "ERR_ILLEGAL"
  | .errFormat => "ERR_FORMAT"
  | .errSlot => "ERR_SLOT"
  | .errParam => "ERR_PARAM"
  | .errCapacity => "ERR_CAPACITY"
  | .errNofilter => "ERR_NOFILTER"
  | .errAlias => "ERR_ALIAS"
  | .errIncompat => "ERR_INCOMPAT"

/-- The errors, in the order of their codes. -/
def allErrs : List Err :=
  [.errIllegal, .errFormat, .errSlot, .errParam, .errCapacity, .errNofilter, .errAlias, .errIncompat]

/-- A response line: `-> OK <words>`, with SAT appended when the flag is set, or `-> ERR_<NAME>`. -/
def responseText (r : Response) : String :=
  match allErrs.find? (fun e => errCode e == r.status.extractLsb' 0 8) with
  | some e => "-> " ++ errText e
  | none => "-> OK" ++ String.join (r.results.map (fun w => " " ++ wordDigits w)) ++
      (if r.status.getLsbD 8 then " SAT" else "")

end Sys2Proof.Machine
end

