-- ==== Sys2Proof/Tests/Slice0.lean ====
section
/-! SUPPORT. Tests of the model against spec/95_test_vectors.md (sections named at each group; every expected value is
copied from there), the smoke test of WellFormed, and for every statement with hypotheses a concrete input that meets
them. -/

namespace Sys2Proof.Tests

set_option Elab.async false

open Sys2Proof Sys2Proof.Machine Sys2Proof.Claims

/-! ## Helpers -/

/-- The last response after an outcome. -/
def lastResponse : Host.Outcome State Fault Refusal → Option Response
  | .next s => s.responses.getLast?
  | .fault _ => none
  | .refused _ => none

/-- The filter in a slot after an outcome. -/
def slotAfter (n : SlotNum) : Host.Outcome State Fault Refusal → Option Filter
  | .next s => s.slot n
  | .fault _ => none
  | .refused _ => none

/-- One step on a packet. -/
def send (p : Packet) (s : State) : Host.Outcome State Fault Refusal := step (pushCommand s p)

/-- The reset state with the given slots. -/
def holding (slots : List (Option Filter)) : State := { State.reset with slots := slots }

/-- Section 6: f0 holding "0", "2", "4". -/
def evens : Filter := ⟨1, 7#32, 3#64, [(0, 0xb04138308a044704#64)]⟩
/-- Section 6: f1 holding "1", "3". -/
def odds : Filter := ⟨1, 7#32, 2#64, [(0, 0x08040155d4402010#64)]⟩
/-- Program P2 before its FUNION. -/
def two : State := holding [some evens, some odds, none, none]
/-- An empty one-word filter, 7 probes. -/
def small : Filter := ⟨1, 7#32, 0#64, []⟩
/-- Its state. -/
def one : State := holding [some small, none, none, none]
/-- A filter with every bit set, count IMAX. -/
def full : Filter := ⟨1, 7#32, 0x7fffffffffffffff#64, [(0, 0xffffffffffffffff#64)]⟩
/-- A filter with no bit set, count IMAX. -/
def saturated : Filter := ⟨1, 7#32, 0x7fffffffffffffff#64, []⟩

theorem legal_evens : evens.Legal 16 := ⟨⟨0, by decide, rfl⟩, by decide, by decide +kernel, by decide⟩
theorem legal_odds : odds.Legal 16 := ⟨⟨0, by decide, rfl⟩, by decide, by decide +kernel, by decide⟩
theorem legal_full : full.Legal 16 := ⟨⟨0, by decide, rfl⟩, by decide, by decide +kernel, by decide⟩

theorem inv_two : two.Inv where
  nslots := by decide
  maxlgw := by decide
  slots := by
    intro f hf
    simp only [two, holding, List.mem_cons, List.not_mem_nil, or_false, Option.some.injEq, reduceCtorEq] at hf
    rcases hf with rfl | rfl
    · exact legal_evens
    · exact legal_odds

/-! ## WellFormed -/

theorem test_message_fits : (Instr.hash []).wellFormed = true := by decide
theorem test_message_too_long (b : Byte) : (Instr.hash (List.replicate (2 ^ 64) b)).wellFormed = false := by
  rw [Instr.wellFormed, messageFits, List.length_replicate]; decide
theorem test_fadd_message_too_long (b : Byte) : (Instr.fadd 0 (List.replicate (2 ^ 64) b)).wellFormed = false := by
  rw [Instr.wellFormed, messageFits, List.length_replicate]; decide
theorem test_ftest_message_too_long (b : Byte) : (Instr.ftest 0 (List.replicate (2 ^ 64) b)).wellFormed = false := by
  rw [Instr.wellFormed, messageFits, List.length_replicate]; decide
theorem test_fload_word_count : (Instr.fload 0 1 1 0 [5]).wellFormed = true := by decide
theorem test_fload_wrong_word_count : (Instr.fload 0 2 1 0 [5]).wellFormed = false := by decide

/-! ## Decoding (section 2): every constructor -/

theorem test_decode_hash :
    decode ⟨0x0100000000000000#64, [9#64, 0x3736353433323130#64, 0x38#64]⟩ =
      .ok (.hash [0x30, 0x31, 0x32, 0x33, 0x34, 0x35, 0x36, 0x37, 0x38]) := by decide
theorem test_decode_fnew : decode ⟨0x1030000000000000#64, [0#64, 2#64]⟩ = .ok (.fnew 3 0 2) := by decide
theorem test_decode_fadd : decode ⟨0x1110000000000000#64, [1#64, 0x31#64]⟩ = .ok (.fadd 1 [0x31]) := by decide
theorem test_decode_ftest : decode ⟨0x1220000000000000#64, [2#64, 0x3833#64]⟩ = .ok (.ftest 2 [0x33, 0x38]) := by
  decide
theorem test_decode_fcount : decode ⟨0x1320000000000000#64, []⟩ = .ok (.fcount 2) := by decide
theorem test_decode_funion : decode ⟨0x14abc00000000000#64, []⟩ = .ok (.funion 0xa 0xb 0xc) := by decide
theorem test_decode_fload :
    decode ⟨0x1830000000000000#64, [2#64, 3#64, 5#64, 0x0123456789abcdef#64, 0xfedcba9876543210#64]⟩ =
      .ok (.fload 3 2 3 5 [0x0123456789abcdef, 0xfedcba9876543210]) := by decide
theorem test_decode_fstore : decode ⟨0x1930000000000000#64, []⟩ = .ok (.fstore 3) := by decide
theorem test_decode_pad_ignored :
    decode ⟨0x0100000000000000#64, [3#64, 0xdeadbeef00636261#64]⟩ = .ok (.hash [0x61, 0x62, 0x63]) := by decide
theorem test_encode_hash :
    encode (.hash [0x61, 0x62, 0x63, 0x64, 0x65, 0x66, 0x67, 0x68, 0x69, 0x6a]) =
      ⟨0x0100000000000000#64, [10#64, 0x6867666564636261#64, 0x6a69#64]⟩ := by decide
theorem test_encode_funion : encode (.funion 3 1 2) = ⟨0x1431200000000000#64, []⟩ := by decide

/-! ## Refused packets (section 2) -/

theorem test_illegal :
    [(⟨0xff00000000000000#64, []⟩ : Packet), ⟨0#64, []⟩, ⟨0x0200000000000000#64, []⟩, ⟨0x1500000000000000#64, []⟩,
      ⟨0x1a00000000000000#64, [5#64]⟩, ⟨0x1330000000000001#64, []⟩, ⟨0x1331000000000000#64, []⟩,
      ⟨0x0110000000000000#64, [0#64]⟩, ⟨0x1000200000000000#64, [10#64, 100#64]⟩,
      ⟨0x1341000000000000#64, [7#64]⟩].all (fun p => decode p == .error .errIllegal) = true := by decide
theorem test_format :
    [(⟨0x1300000000000000#64, [0#64]⟩ : Packet), ⟨0x1000000000000000#64, [10#64]⟩,
      ⟨0x1000000000000000#64, [10#64, 100#64, 0#64]⟩, ⟨0x0100000000000000#64, []⟩, ⟨0x0100000000000000#64, [3#64]⟩,
      ⟨0x0100000000000000#64, [0#64, 0#64]⟩, ⟨0x0100000000000000#64, [8#64, 1#64, 2#64]⟩,
      ⟨0x0100000000000000#64, [0xffffffffffffffff#64, 0#64]⟩,
      ⟨0x1800000000000000#64, [2#64, 3#64, 5#64, 1#64, 2#64, 3#64]⟩, ⟨0x1800000000000000#64, [1#64, 7#64]⟩,
      ⟨0x1340000000000000#64, [0#64]⟩].all (fun p => decode p == .error .errFormat) = true := by decide
theorem test_illegal_response :
    lastResponse (send ⟨0xff00000000000000#64, []⟩ State.reset) = some ⟨0xff00000000000001#64, []⟩ := by
  decide +kernel
theorem test_format_response :
    lastResponse (send ⟨0x1340000000000000#64, [0#64]⟩ State.reset) = some ⟨0x1300000000000002#64, []⟩ := by
  decide +kernel

/-! ## The host's fixed names -/

theorem test_table_hash : decodeTableWord 64 0x0100000000000000 = some (.hash []) := by decide
theorem test_table_fnew : decodeTableWord 64 0x1030000000000000 = some (.fnew 3 0 0) := by decide
theorem test_table_fnew_words : decodeTableWord 192 (0x1030000000000000 + 7 * 2 ^ 64 + 9 * 2 ^ 128) = some (.fnew 3 7 9) :=
  by decide
theorem test_table_funion : decodeTableWord 64 0x1431200000000000 = some (.funion 3 1 2) := by decide
theorem test_table_fload : decodeTableWord 64 0x1830000000000000 = some (.fload 3 0 0 0 []) := by decide
theorem test_table_illegal : decodeTableWord 64 0x1330000000000001 = none := by decide
theorem test_fetch_word :
    lastResponse (step (State.reset.withFetchWord 64 0x1330000000000000)) = some ⟨0x1300000000000006#64, []⟩ := by
  decide +kernel

/-! ## HASH (section 3) -/

theorem test_hash_empty : hashMsg [] = ⟨0#64, 0#64⟩ := by decide +kernel
theorem test_hash_abc :
    lastResponse (send ⟨0x0100000000000000#64, [3#64, 0x636261#64]⟩ State.reset) =
      some ⟨0x0100000000000000#64, [0xb4963f3f3fad7867#64, 0x3ba2744126ca2d52#64]⟩ := by decide +kernel
/-- Message bytes 00, 01, ..., L - 1. -/
def counting (L : Nat) : List Byte := (List.range L).map (BitVec.ofNat 8)
theorem test_hash_tail_15 : hashMsg (counting 15) = ⟨0x47231598fd4925e9#64, 0xcd846dee88c67de9#64⟩ := by decide +kernel
theorem test_hash_block : hashMsg (counting 16) = ⟨0x444924b591903f30#64, 0xab906456762fe845#64⟩ := by decide +kernel
theorem test_hash_blocks_tail : hashMsg (counting 47) = ⟨0x8a0f637c089b4882#64, 0x76976541d96e858c#64⟩ := by
  decide +kernel
theorem test_hash_long : hashMsg (counting 255) = ⟨0x03b09a824269589d#64, 0x85fb67610eedda83#64⟩ := by decide +kernel
theorem test_hash_by_index : hashByIndex (counting 33) = (0x7d41281bfaba4612#64, 0x55ac8073a7d6a30b#64) := by
  decide +kernel
theorem test_mixK2 : mixK2 1#64 = 0x4e26f5539bb7c37e#64 := by decide +kernel
theorem test_fmix : fmix 1#64 = 0xb456bcfc34c2cb2c#64 := by decide +kernel

/-! ## FNEW (section 4) -/

theorem test_sizeWords :
    [(10, 100, 1), (428, 100, 64), (1000, 3, 35), (10000, 1000000, 4490), (437882, 100, 65536), (437883, 100, 65537),
      (18446744073709551615, 2, 415555030969086308)].all (fun t => sizeWords t.1 t.2.1 == t.2.2) = true := by
  decide +kernel
theorem test_sizeProbes :
    [(2, 1), (3, 2), (100, 7), (2584, 11), (2585, 12), (5279, 13), (10783, 14), (22026, 14), (22027, 15),
      (18446744073709551615, 63)].all (fun t => sizeProbes t.1 == t.2) = true := by decide +kernel
theorem test_fnew :
    slotAfter 1 (send ⟨0x1010000000000000#64, [1000#64, 100#64]⟩ two) = some ⟨256, 7#32, 0#64, []⟩ := by decide +kernel
theorem test_fnew_capacity :
    lastResponse (send ⟨0x1000000000000000#64, [437883#64, 100#64]⟩ one) = some ⟨0x1000000000000005#64, []⟩ := by
  decide +kernel

/-! ## FADD, FTEST, FCOUNT (section 5) -/

theorem test_positions : positions small [0x61] = [35, 61, 23, 49, 11, 37, 63] := by decide +kernel
theorem test_positions_wide :
    positions ⟨256, 7#32, 0#64, []⟩ [0x61] = [483, 2877, 5271, 7665, 10059, 12453, 14847] := by decide +kernel
theorem test_fadd :
    slotAfter 0 (send ⟨0x1100000000000000#64, [1#64, 0x61#64]⟩ one) =
      some ⟨1, 7#32, 1#64, [(0, 0xa002002800800800#64)]⟩ := by decide +kernel
theorem test_fadd_saturates :
    lastResponse (send ⟨0x1130000000000000#64, [1#64, 0x61#64]⟩ (holding [none, none, none, some saturated])) =
      some ⟨0x1100000000000100#64, [0#64]⟩ := by decide +kernel
theorem test_ftest_true :
    lastResponse (send ⟨0x1200000000000000#64, [1#64, 0x30#64]⟩ two) = some ⟨0x1200000000000000#64, [1#64]⟩ := by
  decide +kernel
theorem test_ftest_false :
    lastResponse (send ⟨0x1200000000000000#64, [1#64, 0x33#64]⟩ two) = some ⟨0x1200000000000000#64, [0#64]⟩ := by
  decide +kernel
theorem test_fcount :
    lastResponse (send ⟨0x1300000000000000#64, []⟩ two) = some ⟨0x1300000000000000#64, [3#64]⟩ := by decide +kernel

/-! ## FUNION (section 6) -/

theorem test_est :
    [(64, 7, 0, 0), (64, 7, 6, 0), (64, 7, 7, 1), (64, 7, 63, 38), (16384, 7, 3180, 505), (4194304, 7, 4194303, 9137134),
      (18014398509481984, 1, 18014398509481983, 674277994961858794)].all
      (fun t => est t.1 t.2.1 t.2.2.1 == t.2.2.2) = true := by decide +kernel
theorem test_popcount :
    [(0x8000000000000001#64, 2), (0xb8453975de446714#64, 31), (0x0123456789abcdef#64, 32)].all
      (fun t => popcount t.1 == t.2) = true := by decide +kernel
theorem test_funion :
    slotAfter 2 (send ⟨0x1420100000000000#64, []⟩ two) = some ⟨1, 7#32, 6#64, [(0, 0xb8453975de446714#64)]⟩ := by
  decide +kernel
theorem test_funion_full :
    lastResponse (send ⟨0x1420100000000000#64, []⟩
        (holding [some ⟨1, 7#32, 1#64, [(0, 0xffffffff00000000#64)]⟩, some ⟨1, 7#32, 1#64, [(0, 0xffffffff#64)]⟩,
          none, none])) = some ⟨0x1400000000000100#64, []⟩ := by decide +kernel

/-! ## FLOAD, FSTORE (section 7) -/

theorem test_fload :
    slotAfter 3 (send ⟨0x1830000000000000#64, [2#64, 3#64, 5#64, 0x0123456789abcdef#64, 0xfedcba9876543210#64]⟩ two) =
      some ⟨2, 3#32, 5#64, [(0, 0x0123456789abcdef#64), (1, 0xfedcba9876543210#64)]⟩ := by decide +kernel
theorem test_fload_negative :
    lastResponse (send ⟨0x1810000000000000#64, [1#64, 7#64, 0x8000000000000000#64, 0#64]⟩ one) =
      some ⟨0x1800000000000004#64, []⟩ := by decide +kernel
theorem test_fstore :
    lastResponse (send ⟨0x1900000000000000#64, []⟩ (holding [some ⟨2, 3#32, 5#64, [(1, 9#64)]⟩])) =
      some ⟨0x1900000000000000#64, [2#64, 3#64, 5#64, 0#64, 9#64]⟩ := by decide +kernel

/-! ## Priorities (section 8) -/

theorem test_slot_over_nofilter :
    lastResponse (send ⟨0x1423500000000000#64, []⟩ one) = some ⟨0x1400000000000003#64, []⟩ := by decide +kernel
theorem test_nofilter_over_alias :
    lastResponse (send ⟨0x1422000000000000#64, []⟩ one) = some ⟨0x1400000000000006#64, []⟩ := by decide +kernel
theorem test_alias_over_incompat :
    lastResponse (send ⟨0x1400100000000000#64, []⟩ (holding [some small, some ⟨2, 7#32, 0#64, []⟩])) =
      some ⟨0x1400000000000007#64, []⟩ := by decide +kernel

/-! ## The line syntax (sections 2 and 9) -/

theorem test_asm : asmText (.funion 3 1 15) = "FUNION f3, f1, f15" := by decide +kernel
theorem test_response_text : responseText ⟨0x1400000000000008#64, []⟩ = "-> ERR_INCOMPAT" := by decide +kernel

/-! ## Witnesses: inputs that meet the hypotheses of the statements -/

/-- The command channel holds one packet. -/
def waiting (p : Packet) (s : State) : State := pushCommand s p

/-- A message packet of FADD f0. -/
def addPacket : Packet := ⟨0x1100000000000000#64, [1#64, 0x61#64]⟩

/-- One response waits, and there is no room for another; FCOUNT f0 waits too. -/
def stalled : State := { two with commands := [⟨0x1300000000000000#64, []⟩], responses := [⟨0#64, []⟩] }

theorem witness_AssertedResetHoldsTheBlock : (hostEvent .assertReset two).resetIn = true := rfl

theorem witness_StepRunsTheDecodedCommand :
    (waiting addPacket two).resetIn = false ∧ (waiting addPacket two).commands = [addPacket] ∧
      HasRoom (waiting addPacket two) ∧ ¬ HasRoom stalled ∧ decode addPacket = .ok (.fadd 0 [0x61]) :=
  ⟨rfl, rfl, by unfold HasRoom; decide, by unfold HasRoom; decide, by decide⟩

theorem witness_IdleBlockHoldsItsState : two.resetIn = false ∧ two.commands = [] := ⟨rfl, rfl⟩

theorem witness_EveryPacketGetsOneResponse :
    (∃ p rest, (waiting addPacket two).resetIn = false ∧ (waiting addPacket two).commands = p :: rest ∧
      (waiting addPacket two).responses.length ≤ (waiting addPacket two).responseRoom + 0) ∧
    ∃ p rest, stalled.resetIn = false ∧ stalled.commands = p :: rest ∧
      stalled.responses.length ≤ stalled.responseRoom + 1 :=
  ⟨⟨_, _, rfl, rfl, by decide⟩, _, _, rfl, rfl, by decide⟩

theorem witness_ResponseStatusIsLegal :
    ∃ p rest t, (waiting addPacket State.reset).resetIn = false ∧ (waiting addPacket State.reset).commands = p :: rest ∧
      HasRoom (waiting addPacket State.reset) ∧ step (waiting addPacket State.reset) = .next t :=
  ⟨_, _, _, rfl, rfl, by unfold HasRoom; decide, rfl⟩

/-- SAT with code OK does occur, for FADD and for FUNION. -/
theorem witness_ResponseStatusIsLegal_sat :
    (lastResponse (send ⟨0x1130000000000000#64, [1#64, 0x61#64]⟩ (holding [none, none, none, some saturated]))).map
        (fun r => (r.status.toNat / 2 ^ 8 % 2, r.status.toNat % 256)) = some (1, 0) ∧
      (lastResponse (send ⟨0x1420100000000000#64, []⟩ (holding [some full, some small, none]))).map
        (fun r => (r.status.toNat / 2 ^ 8 % 2, r.status.toNat % 256)) = some (1, 0) := by decide +kernel

theorem witness_HostTimingChangesNoResult :
    let s := { stalled with responseRoom := 1, commandRoom := 1 }
    s.resetIn = false ∧ (∃ t, step s = .next t) ∧ s.responses ≠ [] ∧ HasRoom s ∧ s.commands ≠ [] ∧
      s.commands.length ≤ s.commandRoom :=
  ⟨rfl, ⟨_, rfl⟩, by decide, by unfold HasRoom; decide, by decide, by decide⟩

/-- Each wait, the room that ends the first, a run through it, and a state that takes a word. -/
theorem witness_WaitingChangesNoResult :
    stalled.resetIn = false ∧ ¬ HasRoom stalled ∧ (∃ p rest, stalled.commands = p :: rest) ∧
      stalled.responses.length ≤ stalled.responseRoom + 1 ∧ stalled.commandRoom < stalled.commands.length ∧
      (∀ e ∈ [Event.step, .host .takeResponse, .step], e = .step ∨ e = .host .takeResponse) ∧
      two.resetIn = false ∧ two.commands.length ≤ two.commandRoom :=
  ⟨rfl, by unfold HasRoom; decide, ⟨_, _, rfl⟩, by decide, by decide, by decide, rfl, by decide⟩

/-- The block stops, and continues once the response has been accepted: the count of "0", "2", "4". -/
theorem test_stall_and_continue :
    runEvents [.step] stalled = .next stalled ∧
      handedOver [.step, .host .takeResponse, .step, .host .takeResponse] stalled =
        [⟨0#64, []⟩, ⟨0x1300000000000000#64, [3#64]⟩] :=
  ⟨rfl, by decide +kernel⟩

theorem witness_SentPacketArrivesWhole :
    two.resetIn = false ∧ two.incoming = [] ∧ two.commands.length ≤ two.commandRoom := by decide

theorem witness_DecodeInvertsEncode :
    (Instr.hash [0x61]).wellFormed = true ∧ (Instr.hash []).wellFormed = true ∧
      (Instr.fload 15 2 3 5 [1, 2]).wellFormed = true ∧ (Instr.fload 0 0 0 0 []).wellFormed = true := by decide

/-- Each clause of an illegal header. -/
theorem witness_IllegalHeadersAreRefused :
    HasRoom (waiting ⟨0x0200000000000000#64, []⟩ two) ∧
    IllegalHeader ⟨0x0200000000000000#64, []⟩ ∧ IllegalHeader ⟨0x1330000000000001#64, []⟩ ∧
      IllegalHeader ⟨0x13f0080000000000#64, []⟩ ∧ IllegalHeader ⟨0x01f0000000000000#64, [0#64]⟩ ∧
      IllegalHeader ⟨0x1331000000000000#64, []⟩ ∧ IllegalHeader ⟨0x1000100000000000#64, [10#64, 100#64]⟩ ∧
      ¬ IllegalHeader ⟨0x14fff00000000000#64, []⟩ ∧ ¬ IllegalHeader ⟨0x0100000000000000#64, []⟩ := by
  refine ⟨by unfold HasRoom; decide, ?_, ?_, ?_, ?_, ?_, ?_, ?_, ?_⟩ <;> (unfold IllegalHeader; decide +kernel)

/-- Each clause of a wrong length, and right lengths beside them. -/
theorem witness_WrongLengthsAreRefused :
    HasRoom (waiting ⟨0x1300000000000000#64, [0#64]⟩ two) ∧
    WrongLength ⟨0x1300000000000000#64, [0#64]⟩ ∧ WrongLength ⟨0x1000000000000000#64, [10#64]⟩ ∧
      WrongLength ⟨0x0100000000000000#64, []⟩ ∧ WrongLength ⟨0x0100000000000000#64, [9#64, 0#64]⟩ ∧
      WrongLength ⟨0x1800000000000000#64, [0#64, 7#64]⟩ ∧
      WrongLength ⟨0x1800000000000000#64, [1#64, 7#64, 0#64]⟩ ∧
      ¬ IllegalHeader ⟨0x1300000000000000#64, [0#64]⟩ ∧
      ¬ WrongLength ⟨0x0100000000000000#64, [8#64, 0#64]⟩ ∧
      ¬ WrongLength ⟨0x1800000000000000#64, [0#64, 7#64, 0#64]⟩ := by
  refine ⟨by unfold HasRoom; decide, ?_, ?_, ?_, ?_, ?_, ?_, ?_, ?_, ?_⟩ <;>
    first
    | (unfold WrongLength; decide +kernel)
    | (unfold IllegalHeader; decide +kernel)

theorem witness_DecodingIsUniqueUpToPad :
    decode ⟨0x0100000000000000#64, [3#64, 0xdeadbeef00636261#64]⟩ = .ok (.hash [0x61, 0x62, 0x63]) ∧
      decode ⟨0x0100000000000000#64, [3#64, 0x0000000000636261#64]⟩ = .ok (.hash [0x61, 0x62, 0x63]) := by decide

theorem witness_MessageBytesComeFromThePayload :
    decode ⟨0x1220000000000000#64, [2#64, 0x3833#64]⟩ = .ok (.ftest 2 [0x33, 0x38]) ∧
      messageOperand (.ftest 2 [0x33, 0x38]) = some [0x33, 0x38] := by decide

/-- The least rate, and the largest operands FNEW can have. -/
theorem witness_SizeWordsIsExact :
    (2 : Nat) ≤ 2 ∧ 2 ≤ 2 ^ 64 - 1 ∧ 2 ^ 64 - 1 < 2 ^ 64 := by decide

theorem witness_SizeProbesIsExact :
    2 ≤ (2#64).toNat ∧ 2 ≤ (0xffffffffffffffff#64).toNat ∧ sizeProbes 1265 = 10 ∧ sizeProbes 1266 = 11 := by
  decide +kernel

theorem witness_FnewMakesAnEmptyFilter :
    SlotPresent State.reset 3 ∧ 2 ≤ (100#64).toNat ∧
      sizeWords (437882#64).toNat (100#64).toNat ≤ 2 ^ State.reset.maxlgw := by
  unfold SlotPresent; decide +kernel

/-- The clauses at their ends: p = 1 and p = 2, a minimum word count just above and just at the capacity. -/
theorem witness_FnewRefusesBadSizes :
    SlotPresent State.reset 0 ∧ (1#64).toNat < 2 ∧ 2 ≤ (2#64).toNat ∧
      2 ^ State.reset.maxlgw < sizeWords (437883#64).toNat (100#64).toNat ∧
      sizeWords (437882#64).toNat (100#64).toNat ≤ 2 ^ State.reset.maxlgw := by
  unfold SlotPresent; decide +kernel

theorem witness_ProbePositionsFollowTheRecurrence : evens.Legal 16 ∧ Config.MaxlgwLegal 16 :=
  ⟨legal_evens, by decide⟩

/-- The largest word count and the largest MAXLGW. -/
theorem witness_ProbePositionsFollowTheRecurrence_largest :
    (⟨2 ^ 48, 1#32, 0#64, []⟩ : Filter).Legal 48 ∧ Config.MaxlgwLegal 48 :=
  ⟨⟨⟨48, by decide, rfl⟩, by decide, by decide +kernel, by decide⟩, by decide⟩

/-- Each case of the count: a bit newly set, none newly set, and the count at IMAX. -/
theorem witness_FaddSetsTheProbedBits :
    two.slot 0 = some evens ∧ allSet evens [0x33] = false ∧ allSet evens [0x30] = true ∧ evens.count ≠ IMAX ∧
      saturated.count = IMAX ∧ allSet saturated [0x61] = false := by decide +kernel

theorem witness_FtestReportsMembership :
    two.slot 1 = some odds ∧ allSet odds [0x31] = true ∧ allSet odds [0x30] = false := by decide +kernel

theorem witness_FcountReportsTheCount : two.slot 1 = some odds := by decide

theorem witness_FstoreReportsTheFilter : two.slot 0 = some evens := by decide

/-- Commands that leave slot 0's filter in place, one of them an FADD to it. -/
def harmless : List Instr := [.fadd 0 [0x33], .hash [], .fnew 1 0 2, .funion 2 0 0, .fload 3 0 0 0 [], .fstore 0]

theorem witness_InsertionIsMonotone :
    two.slot 0 = some evens ∧ evens.count.toNat ≤ IMAX.toNat ∧ ∀ i ∈ harmless, replacedSlot i ≠ some 0 := by
  decide +kernel

theorem witness_NoFalseNegatives :
    two.slot 0 = some evens ∧ (∃ s1, exec (.fadd 0 [0x33]) two = .next s1) ∧
      ∀ i ∈ harmless, replacedSlot i ≠ some 0 :=
  ⟨by decide, ⟨_, execFadd_ok (f := evens) (by decide)⟩, by decide⟩

theorem witness_SecondInsertionAnswersOne :
    two.slot 0 = some evens ∧ ∃ s1, exec (.fadd 0 [0x33]) two = .next s1 := ⟨by decide, ⟨_, execFadd_ok (f := evens) (by decide)⟩⟩

theorem witness_FreshFilterIsEmpty :
    SlotPresent two 0 ∧ 2 ≤ (2#64).toNat ∧ sizeWords (0#64).toNat (2#64).toNat ≤ 2 ^ two.maxlgw := by
  unfold SlotPresent; decide +kernel

theorem witness_CountTalliesNewInsertions :
    ∃ s0 f0, exec (.fnew 0 10#64 100#64) State.reset = .next s0 ∧
      s0.responses = State.reset.responses ++ [⟨status 0x10 false 0, []⟩] ∧ s0.slot 0 = some f0 ∧
      ([[0x61], [0x61], []] : List (List Byte)).length < 2 ^ 63 := by
  refine ⟨_, newFilter State.reset.maxlgw (10#64).toNat (100#64).toNat,
    execFnew_ok (by decide) (by decide) (by decide +kernel), ?_, ?_, by decide⟩
  · decide +kernel
  · exact State.slot_setSlot_same _ _ _ (by decide)

/-- The two ends of X, and the largest m. -/
theorem witness_EstIsExact :
    0 < 7 ∧ 0 < 64 ∧ 63 < 64 ∧ 64 ≤ 2 ^ 54 ∧ 2 ^ 54 - 1 < 2 ^ 54 ∧ 0 ≤ 63 ∧ 7 ≤ 8 := by decide

theorem witness_FunionMergesTheSources :
    SlotPresent two 2 ∧ two.slot 0 = some evens ∧ two.slot 1 = some odds ∧ (2 : SlotNum) ≠ 0 ∧ (2 : SlotNum) ≠ 1 ∧
      evens.W = odds.W ∧ evens.probes = odds.probes ∧ evens.Legal two.maxlgw ∧ odds.Legal two.maxlgw ∧
      Config.MaxlgwLegal two.maxlgw :=
  ⟨by unfold SlotPresent; decide, by decide, by decide, by decide, by decide, rfl, rfl, legal_evens, legal_odds,
    by decide⟩

/-- A union with every bit set, and one with bits to spare. -/
theorem witness_FunionMergesTheSources_counts :
    Memory.setBits (unionOf full full).1.words = 64 * full.W ∧
      Memory.setBits (unionOf evens odds).1.words < 64 * evens.W := by decide +kernel

/-- Each clause: a source EMPTY, the destination the second source, and probes that differ. -/
theorem witness_FunionRefusesBadOperands :
    let s := holding [some small, some ⟨1, 6#32, 0#64, []⟩, some ⟨2, 7#32, 0#64, []⟩, none]
    (SlotPresent s 3 ∧ SlotPresent s 0 ∧ SlotPresent s 1 ∧ SlotPresent s 2) ∧ s.slot 3 = none ∧
      s.slot 0 = some small ∧ s.slot 1 = some ⟨1, 6#32, 0#64, []⟩ ∧ s.slot 2 = some ⟨2, 7#32, 0#64, []⟩ ∧
      small.probes ≠ 6#32 ∧ small.W ≠ 2 := by
  unfold SlotPresent; decide +kernel

theorem witness_UnionKeepsMembership :
    SlotPresent two 2 ∧ two.slot 0 = some evens ∧ two.slot 1 = some odds ∧ evens.W = odds.W ∧
      evens.probes = odds.probes ∧ evens.Legal two.maxlgw ∧ odds.Legal two.maxlgw ∧ allSet evens [0x30] = true ∧
      allSet odds [0x31] = true :=
  ⟨by unfold SlotPresent; decide, by decide, by decide, rfl, rfl, legal_evens, legal_odds, by decide +kernel,
    by decide +kernel⟩

/-- The largest operands FLOAD accepts under MAXLGW = 16. -/
theorem witness_FloadReplacesTheFilter :
    SlotPresent two 3 ∧ (List.replicate (2 ^ 16) (1#64)).length = (0x10000#64).toNat ∧
      PowerOfTwo (0x10000#64).toNat ∧ (0x10000#64).toNat ≤ 2 ^ two.maxlgw ∧ 1 ≤ (0xffffffff#64).toNat ∧
      (0xffffffff#64).toNat < 2 ^ 32 ∧ (0x7fffffffffffffff#64).toNat < 2 ^ 63 :=
  ⟨by unfold SlotPresent; decide, by rw [List.length_replicate]; decide, ⟨16, by decide⟩, by decide +kernel, by decide,
    by decide, by decide⟩

theorem not_powerOfTwo_zero : ¬ PowerOfTwo (0#64).toNat := fun ⟨_, h⟩ => absurd h.symm (Nat.two_pow_pos _).ne'

/-- Each clause at its end: W = 0, probes 0 and 2^32, count 2^63; W one doubling too large. -/
theorem witness_FloadRefusesBadOperands :
    SlotPresent two 3 ∧ ¬ PowerOfTwo (0#64).toNat ∧ (0#64).toNat = 0 ∧ 2 ^ 32 ≤ (0x100000000#64).toNat ∧
      2 ^ 63 ≤ (0x8000000000000000#64).toNat ∧ PowerOfTwo (0x20000#64).toNat ∧ 1 ≤ (1#64).toNat ∧
      (1#64).toNat < 2 ^ 32 ∧ (0#64).toNat < 2 ^ 63 ∧ 2 ^ two.maxlgw < (0x20000#64).toNat :=
  ⟨by unfold SlotPresent; decide, not_powerOfTwo_zero, by decide, by decide, by decide, ⟨17, by decide⟩, by decide,
    by decide, by decide, by decide +kernel⟩

theorem witness_StoreThenLoadCopiesTheFilter : two.Inv ∧ two.slot 0 = some evens ∧ SlotPresent two 3 :=
  ⟨inv_two, by decide, by unfold SlotPresent; decide⟩

theorem witness_MissingSlotIsRefused :
    (∃ n ∈ usedSlots (.funion 0 1 4), two.nslots ≤ n.toNat) ∧ (State.resetWith 16 16 0 0).nslots = 16 := by decide

theorem witness_EmptySlotIsRefused :
    (∀ n ∈ usedSlots (.funion 0 1 2), SlotPresent two n) ∧ ∃ n ∈ readSlots (.funion 0 1 2), two.slot n = none := by
  unfold SlotPresent; decide

theorem witness_ErrorsChangeNothing :
    ∃ t r, exec (.fcount 3) two = .next t ∧ t.responses = two.responses ++ [r] ∧ r.status.toNat % 256 ≠ 0 :=
  ⟨_, _, rfl, rfl, by decide +kernel⟩

theorem witness_OnlyTheWrittenSlotChanges :
    (∃ t, exec (.fload 2 1 1 0 [5]) two = .next t) ∧
      ∃ j, ∀ fd, writtenSlot (.fload 2 1 1 0 [5]) = some fd → j ≠ fd.toNat :=
  ⟨⟨_, rfl⟩, 3, by intro fd h; cases h; decide⟩

theorem witness_ValidIsSetOnlyByConstruction :
    ∃ t, exec (.fload 2 1 1 0 [5]) two = .next t ∧ two.slot 2 = none ∧ t.slot 2 ≠ none ∧ two.slot 0 ≠ none :=
  ⟨_, rfl, by decide, by decide, by decide⟩

/-- Two states that differ in a slot the command does not read. -/
theorem witness_ResponseDependsOnlyOnSlotsRead :
    let s := holding [some evens, none, none, none]
    s.nslots = two.nslots ∧ s.maxlgw = two.maxlgw ∧ s ≠ two ∧
      ∀ n ∈ readSlots (.ftest 0 []), s.slot n = two.slot n := by decide

theorem witness_StepKeepsInvariant : (waiting ⟨0x1300000000000000#64, []⟩ two).Inv ∧
    ∃ t, step (waiting ⟨0x1300000000000000#64, []⟩ two) = .next t :=
  ⟨⟨inv_two.nslots, inv_two.maxlgw, inv_two.slots⟩, ⟨_, rfl⟩⟩

theorem witness_EveryRunIsSafe : two.Inv := inv_two

end Sys2Proof.Tests
end

section
/-! PROOFS, family 10_state.md: what filter a command puts into a slot, that it is legal (R26), and that without a
replacing command it keeps every bit and the count of the one before (R27). -/

namespace Sys2Proof.Machine

/-! ## The filter a command puts into its slot -/

/-- `Puts s i fd g`: in state `s`, command `i` puts filter `g` into slot `fd`, if that slot and the command's others
exist. The premises are the conditions under which the command answers OK; `exec_puts` ties the relation to `exec`. -/
inductive Puts (s : State) : Instr → SlotNum → Filter → Prop where
  | fnew {fd : SlotNum} {n p : Word} (hp : rateLegal p = true) (hn : sizeWords n.toNat p.toNat ≤ 2 ^ s.maxlgw) :
      Puts s (.fnew fd n p) fd (newFilter s.maxlgw n.toNat p.toNat)
  | fadd {fd : SlotNum} {msg : List Byte} {f : Filter} (hf : s.slot fd = some f) :
      Puts s (.fadd fd msg) fd (addTo f msg).1
  | funion {fd fa fb : SlotNum} {a b : Filter} (ha : s.slot fa = some a) (hb : s.slot fb = some b)
      (hd : (fd == fa || fd == fb) = false) (hc : compatible a b = true) :
      Puts s (.funion fd fa fb) fd (unionOf a b).1
  | fload {fd : SlotNum} {W k c : Word} {ws : List Word} (hl : loadOperandsLegal W k c = true)
      (hW : W.toNat ≤ 2 ^ s.maxlgw) : Puts s (.fload fd W k c ws) fd (loadedFilter W k c ws)

/-- A command that writes no slot appends one response and does nothing else (10_state.md R29). -/
theorem exec_of_writtenSlot_none {i : Instr} (hi : writtenSlot i = none) (s : State) :
    ∃ r, exec i s = .next (s.emit r) := by
  obtain ⟨r, h | ⟨fd, f, hw, -, -⟩⟩ := exec_effect i s
  · exact ⟨r, h⟩
  · simp [hi] at hw

/-- Every command appends one response, and beyond that it can only have put a filter of `Puts` into an existing
slot. -/
theorem exec_puts (i : Instr) (s : State) : ∃ r, exec i s = .next (s.emit r) ∨
    ∃ fd g, slotExists s fd = true ∧ Puts s i fd g ∧ exec i s = .next ((s.setSlot fd g).emit r) := by
  cases i with
  | hash | ftest | fcount | fstore => exact (exec_of_writtenSlot_none rfl s).imp fun _ => .inl
  | fnew fd n p =>
    obtain ⟨e, -, h⟩ | ⟨hx, hp, hn, h⟩ := execFnew_cases s fd n p
    · exact ⟨_, .inl h⟩
    · exact ⟨_, .inr ⟨fd, _, hx, .fnew hp hn, h⟩⟩
  | fadd fd msg =>
    obtain ⟨e, -, h⟩ | ⟨f, hf, h⟩ := execFadd_cases s fd msg
    · exact ⟨_, .inl h⟩
    · exact ⟨_, .inr ⟨fd, _, slotExists_of_slot s fd f hf, .fadd hf, h⟩⟩
  | funion fd fa fb =>
    obtain ⟨e, -, h⟩ | ⟨a, b, hx, ha, hb, hd, hc, h⟩ := execFunion_cases s fd fa fb
    · exact ⟨_, .inl h⟩
    · exact ⟨_, .inr ⟨fd, _, hx, .funion ha hb hd hc, h⟩⟩
  | fload fd W k c ws =>
    obtain ⟨e, -, h⟩ | ⟨hx, hl, hW, h⟩ := execFload_cases s fd W k c ws
    · exact ⟨_, .inl h⟩
    · exact ⟨_, .inr ⟨fd, _, hx, .fload hl hW, h⟩⟩

/-! ## Decoded commands are well formed (30_encoding.md R72, R73) -/

theorem length_messageOf_lt (body : List Word) : (messageOf body).length < 2 ^ 64 := by
  cases body with
  | nil => decide
  | cons L payload => exact (List.length_take_le _ _).trans_lt L.isLt

/-- The array of an FLOAD packet of the right length has the `W` words its first operand announces. -/
theorem length_drop_of_lengthOk_L {p : Packet} (h : lengthOk .L p.body = true) :
    (p.body.drop 3).length = (p.operand 0).toNat := by
  unfold Packet.operand
  match hb : p.body with
  | [] | [_] | [_, _] => simp [hb, lengthOk, bodyWords] at h
  | W :: k :: c :: ws =>
    simp only [hb, lengthOk, bodyWords, beq_iff_eq, Option.some.injEq, List.length_cons] at h
    simp only [List.drop_succ_cons, List.drop_zero, List.getD_cons_zero]
    omega

theorem decode_wellFormed {p : Packet} {i : Instr} (h : decode p = .ok i) : i.wellFormed = true := by
  obtain ⟨o, -, -, hl, rfl⟩ := decode_eq_ok_iff.mp h
  cases o with
  | hash | fadd | ftest => exact decide_eq_true (length_messageOf_lt p.body)
  | fnew | fcount | funion | fstore => rfl
  | fload => exact decide_eq_true (length_drop_of_lengthOk_L hl)

/-! ## The invariant (10_state.md R26) -/

/-- The invariant speaks of the slots and `MAXLGW` only. -/
theorem State.Inv.of_slots_eq {s t : State} (h : s.Inv) (hs : t.slots = s.slots) (hm : t.maxlgw = s.maxlgw) : t.Inv where
  nslots := by simpa only [State.nslots, hs] using h.nslots
  maxlgw := hm ▸ h.maxlgw
  slots := by simpa only [hs, hm] using h.slots

theorem State.Inv.emit {s : State} (h : s.Inv) (r : Response) : (s.emit r).Inv := h.of_slots_eq rfl rfl

theorem State.Inv.setSlot {s : State} {f : Filter} (h : s.Inv) (n : SlotNum) (hf : f.Legal s.maxlgw) :
    (s.setSlot n f).Inv where
  nslots := by simpa only [State.setSlot_nslots] using h.nslots
  maxlgw := h.maxlgw
  slots g hg := by
    obtain hg | hg := List.mem_or_eq_of_mem_set hg
    · exact h.slots g hg
    · exact Option.some.inj hg ▸ hf

theorem State.Inv.cleared {s : State} (h : s.Inv) : s.cleared.Inv where
  nslots := by simpa only [State.cleared_nslots] using h.nslots
  maxlgw := h.maxlgw
  slots f hf := by simp at hf

theorem State.Inv.legal_of_slot {s : State} (h : s.Inv) {n : SlotNum} {f : Filter} (hf : s.slot n = some f) :
    f.Legal s.maxlgw := h.slots f (s.mem_of_slot n f hf)

/-- What a well-formed command puts into a slot is legal when the filters it reads are. -/
theorem Puts.legal {s : State} {i : Instr} {fd : SlotNum} {g : Filter} (h : Puts s i fd g) (hs : s.Inv)
    (hi : i.wellFormed = true) : g.Legal s.maxlgw := by
  cases h with
  | fnew hp hn => exact newFilter_legal (of_decide_eq_true hp) (BitVec.isLt _) hn
  | fadd hf => exact addTo_legal (hs.legal_of_slot hf) hs.maxlgw _
  | funion ha hb _ hc => exact unionOf_legal (hs.legal_of_slot ha) (hs.legal_of_slot hb) hs.maxlgw hc
  | fload hl hW => exact loadedFilter_legal hl hW (of_decide_eq_true hi)

theorem exec_keeps_inv {i : Instr} {s t : State} (hs : s.Inv) (hi : i.wellFormed = true) (h : exec i s = .next t) :
    t.Inv := by
  obtain ⟨r, he | ⟨fd, g, -, hg, he⟩⟩ := exec_puts i s <;> obtain rfl := Host.Outcome.next.inj (h.symm.trans he)
  · exact hs.emit r
  · exact (hs.setSlot fd (hg.legal hs hi)).emit r

theorem execPacket_keeps_inv {p : Packet} {s t : State} (hs : s.Inv) (h : execPacket p s = .next t) : t.Inv := by
  unfold execPacket at h
  split at h
  next i hd => exact exec_keeps_inv hs (decode_wellFormed hd) h
  next e _ => exact Host.Outcome.next.inj h ▸ hs.emit _

/-- Settles O47: reset empties the slots, a waiting block keeps its state, and a command puts only legal filters into
slots. -/
theorem stepKeepsInvariant : Obligations.StepKeepsInvariant := by
  intro s t hs h
  obtain ⟨-, rfl⟩ | ⟨-, rfl, -⟩ | ⟨-, p, rest, l, r, -, -, he, -⟩ := step_cases h
  · exact hs.cleared
  · exact hs
  · exact execPacket_keeps_inv (s := { s with commands := rest }) (hs.of_slots_eq rfl rfl) he

/-! ## Growth of a filter that no command replaces (10_state.md R27) -/

/-- `f.GrowsTo g`: the same size and probe count, no bit cleared, and from a legal count a legal one no smaller. -/
structure Filter.GrowsTo (f g : Filter) : Prop where
  W      : g.W = f.W
  probes : g.probes = f.probes
  bits   : ∀ n, Memory.bit f.words n = true → Memory.bit g.words n = true
  count  : f.count.toNat ≤ IMAX.toNat → f.count.toNat ≤ g.count.toNat ∧ g.count.toNat ≤ IMAX.toNat

theorem Filter.GrowsTo.refl (f : Filter) : f.GrowsTo f := ⟨rfl, rfl, fun _ h => h, fun h => ⟨le_rfl, h⟩⟩

theorem Filter.GrowsTo.trans {f g k : Filter} (h : f.GrowsTo g) (h' : g.GrowsTo k) : f.GrowsTo k where
  W := h'.W.trans h.W
  probes := h'.probes.trans h.probes
  bits n hn := h'.bits n (h.bits n hn)
  count hc := by
    obtain ⟨hfg, hg⟩ := h.count hc
    obtain ⟨hgk, hk⟩ := h'.count hg
    exact ⟨hfg.trans hgk, hk⟩

theorem Filter.growsTo_addTo (f : Filter) (msg : List Byte) : f.GrowsTo (addTo f msg).1 where
  W := rfl
  probes := rfl
  bits n hn := by simp [addTo_bit, hn]
  count := countAfterAdd_le _

/-- Only an insertion puts a filter into a slot without replacing the one there. -/
theorem Puts.growsTo {s : State} {i : Instr} {fd : SlotNum} {f g : Filter} (h : Puts s i fd g)
    (hi : replacedSlot i ≠ some fd) (hf : s.slot fd = some f) : f.GrowsTo g := by
  cases h with
  | fadd hf' => exact Option.some.inj (hf.symm.trans hf') ▸ f.growsTo_addTo _
  | fnew | funion | fload => exact absurd rfl hi

theorem exec_growsTo {i : Instr} {s : State} {fd : SlotNum} {f : Filter} (hf : s.slot fd = some f)
    (hi : replacedSlot i ≠ some fd) : ∃ t g, exec i s = .next t ∧ t.slot fd = some g ∧ f.GrowsTo g := by
  obtain ⟨r, he | ⟨n, g, hx, hg, he⟩⟩ := exec_puts i s
  · exact ⟨_, f, he, hf, .refl f⟩
  · by_cases hn : fd = n
    · subst hn
      exact ⟨_, g, he, s.slot_setSlot_same fd g hx, hg.growsTo hi hf⟩
    · exact ⟨_, f, he, (s.slot_setSlot_ne n fd g hn).trans hf, .refl f⟩

theorem execAll_growsTo {cmds : List Instr} {s : State} {fd : SlotNum} {f : Filter} (hf : s.slot fd = some f)
    (hc : ∀ i ∈ cmds, replacedSlot i ≠ some fd) :
    ∃ t g, execAll cmds s = .next t ∧ t.slot fd = some g ∧ f.GrowsTo g := by
  induction cmds generalizing s f with
  | nil => exact ⟨s, f, rfl, hf, .refl f⟩
  | cons i is ih =>
    obtain ⟨hi, his⟩ := List.forall_mem_cons.mp hc
    obtain ⟨u, g, he, hg, hfg⟩ := exec_growsTo hf hi
    obtain ⟨t, k, ha, hk, hgk⟩ := ih hg his
    exact ⟨t, k, by simp only [execAll, he, ha], hk, hfg.trans hgk⟩

/-- Settles O28, by induction over the commands: each leaves the slot's filter in place or inserts into it. -/
theorem insertionIsMonotone : Obligations.InsertionIsMonotone := by
  intro cmds fd s f hf hcount hcmds
  obtain ⟨t, g, he, hg, hfg⟩ := execAll_growsTo hf hcmds
  exact ⟨t, g, he, hg, hfg.W, hfg.probes, hfg.bits, hfg.count hcount⟩

end Sys2Proof.Machine
end

section
/-! PROOFS, family 30_encoding.md: what a legal packet and its command say of each other (R73, R74, R88), and the one
response that answers any packet (R82, R83, R85). -/

namespace Sys2Proof.Machine

open Sys2Proof.Claims

/-! ## The header of a legal packet (30_encoding.md R71, R76, R77) -/

theorem opcOf_eq_toNat_opc (p : Packet) : opcOf p = p.opc.toNat := (toNat_opc p).symm

/-- The five fields make up the whole header word. -/
theorem header_eq_iff_fields {p q : Packet} :
    p.header = q.header ↔
      p.opc = q.opc ∧ p.fd = q.fd ∧ p.fa = q.fa ∧ p.fb = q.fb ∧ p.rsv = q.rsv := by
  simp only [← BitVec.toNat_inj, toNat_opc, toNat_fd, toNat_fa, toNat_fb, toNat_rsv]
  omega

/-- A clean header has nothing in it but the opcode and the slot fields its command uses. -/
theorem header_eq_iff_of_headerClean {o : Op} {p q : Packet} (hpq : p.opc = q.opc) (hp : headerClean o p = true)
    (hq : headerClean o q = true) :
    p.header = q.header ↔
      (o.usesFD = true → p.fd = q.fd) ∧ (o.usesFAFB = true → p.fa = q.fa ∧ p.fb = q.fb) := by
  simp only [headerClean, Bool.and_eq_true, Bool.or_eq_true, beq_iff_eq] at hp hq
  obtain ⟨⟨hpr, hpd⟩, hpab⟩ := hp
  obtain ⟨⟨hqr, hqd⟩, hqab⟩ := hq
  rw [header_eq_iff_fields]
  constructor
  · rintro ⟨-, hfd, hfa, hfb, -⟩
    exact ⟨fun _ => hfd, fun _ => ⟨hfa, hfb⟩⟩
  · rintro ⟨hd, hab⟩
    have hfd : p.fd = q.fd := hpd.elim hd fun hp0 => hqd.elim hd fun hq0 => hp0.trans hq0.symm
    have hfab : p.fa = q.fa ∧ p.fb = q.fb :=
      hpab.elim hab fun ⟨hpa, hpb⟩ => hqab.elim hab fun ⟨hqa, hqb⟩ => ⟨hpa.trans hqa.symm, hpb.trans hqb.symm⟩
    obtain ⟨hfa, hfb⟩ := hfab
    exact ⟨hpq, hfd, hfa, hfb, hpr.trans hqr.symm⟩

/-! ## The words after the header (30_encoding.md R72) -/

theorem lengthOk_S_iff {body : List Word} : lengthOk .S body = true ↔ body = [] := by
  cases body <;> simp [lengthOk, bodyWords]

theorem lengthOk_P_iff {body : List Word} : lengthOk .P body = true ↔ ∃ n p, body = [n, p] := by
  rw [← List.length_eq_two]
  simp [lengthOk, bodyWords, eq_comm (a := 2)]

theorem lengthOk_M_iff {body : List Word} :
    lengthOk .M body = true ↔ ∃ L payload, body = L :: payload ∧ payload.length = (L.toNat + 7) / 8 := by
  cases body with
  | nil => simp [lengthOk, bodyWords]
  | cons L payload => simp [lengthOk, bodyWords, payloadWords_eq]; omega

theorem lengthOk_L_iff {body : List Word} :
    lengthOk .L body = true ↔ ∃ W k c ws, body = W :: k :: c :: ws ∧ ws.length = W.toNat := by
  match body with
  | [] | [_] | [_, _] => simp [lengthOk, bodyWords]
  | W :: k :: c :: ws => simp [lengthOk, bodyWords]; omega

/-! ## The message of a format M packet (30_encoding.md R73, R74) -/

variable {p q : Packet}

theorem wordsOf_of_lengthOk_M (h : lengthOk .M p.body = true) : wordsOf p = 2 + (wordOne p + 7) / 8 := by
  obtain ⟨L, payload, hb, hlen⟩ := lengthOk_M_iff.mp h
  simp only [wordsOf, wordOne, hb, List.length_cons, List.getD_cons_zero, hlen]
  omega

theorem length_messageOf (h : lengthOk .M p.body = true) : (messageOf p.body).length = wordOne p := by
  obtain ⟨L, payload, hb, hlen⟩ := lengthOk_M_iff.mp h
  simp only [wordOne, hb, messageOf, List.length_take, length_flatMap_wordBytes, hlen, List.getD_cons_zero]
  omega

theorem toNat_getD_messageOf {b : Nat} (hb : b < wordOne p) :
    ((messageOf p.body).getD b 0#8).toNat = payloadByte p b := by
  rw [wordOne] at hb
  rw [payloadByte]
  cases hbody : p.body with
  | nil => simp [messageOf]
  | cons L payload =>
    have htake : ((payload.flatMap wordBytes).take L.toNat).getD b 0#8 = (payload.flatMap wordBytes).getD b 0#8 := by
      simp [List.getD, show b < L.toNat by simpa [hbody] using hb]
    rw [messageOf, htake, getD_flatMap_wordBytes, BitVec.extractLsb'_toNat, Nat.shiftRight_eq_div_pow,
      Nat.add_comm 1, List.getD_cons_succ]

/-- A message is its length and its bytes. -/
theorem messageOf_eq_iff (hp : lengthOk .M p.body = true) (hq : lengthOk .M q.body = true) :
    messageOf p.body = messageOf q.body ↔
      wordOne p = wordOne q ∧ ∀ b, b < wordOne p → payloadByte p b = payloadByte q b := by
  constructor
  · intro h
    have hlen : wordOne p = wordOne q := by rw [← length_messageOf hp, ← length_messageOf hq, h]
    refine ⟨hlen, fun b hb => ?_⟩
    rw [← toNat_getD_messageOf hb, ← toNat_getD_messageOf (hlen ▸ hb), h]
  · rintro ⟨hlen, hbytes⟩
    refine List.ext_getElem (by rw [length_messageOf hp, length_messageOf hq, hlen]) fun b hb hb' => ?_
    have hbp : b < wordOne p := length_messageOf hp ▸ hb
    rw [← List.getD_eq_getElem _ 0#8 hb, ← List.getD_eq_getElem _ 0#8 hb', ← BitVec.toNat_inj,
      toNat_getD_messageOf hbp, toNat_getD_messageOf (hlen ▸ hbp)]
    exact hbytes b hbp

theorem format_of_messageOperand_assemble {o : Op} {msg : List Byte} (h : messageOperand (assemble o p) = some msg) :
    o.format = .M ∧ msg = messageOf p.body := by
  cases o with
  | hash | fadd | ftest => exact ⟨rfl, (Option.some.inj h).symm⟩
  | fnew | fcount | funion | fload | fstore => simp [assemble, messageOperand] at h

/-- Settles O17: the length check gives `c[1]` and the packet's length, and the payload its bytes. -/
theorem messageBytesComeFromThePayload : Obligations.MessageBytesComeFromThePayload := by
  intro p i msg hd hm
  obtain ⟨o, -, -, hl, rfl⟩ := decode_eq_ok_iff.mp hd
  obtain ⟨hM, rfl⟩ := format_of_messageOperand_assemble hm
  rw [hM] at hl
  rw [length_messageOf hl]
  exact ⟨rfl, wordsOf_of_lengthOk_M hl, fun b hb => toNat_getD_messageOf hb⟩

/-! ## When two legal packets denote the same command (30_encoding.md R88) -/

/-- The command an instruction is assembled for is the instruction's command. -/
@[simp] theorem op_assemble (o : Op) (p : Packet) : (assemble o p).op = o := by cases o <;> rfl

/-- A packet with a message has an opcode of format M. -/
theorem opcOf_mem_iff_format_M {o : Op} (h : p.opc = o.code) : opcOf p ∈ [0x01, 0x11, 0x12] ↔ o.format = .M := by
  rw [opcOf_eq_toNat_opc, h]
  cases o <;> decide

/-- The operands of two packets of one command, compared through the words that carry them. -/
theorem assemble_eq_iff {o : Op} (hpq : p.opc = q.opc) (hpc : headerClean o p = true) (hqc : headerClean o q = true)
    (hpl : lengthOk o.format p.body = true) (hql : lengthOk o.format q.body = true) :
    assemble o p = assemble o q ↔
      p.header = q.header ∧
        if o.format = .M then messageOf p.body = messageOf q.body else p.body = q.body := by
  rw [header_eq_iff_of_headerClean hpq hpc hqc]
  cases o with
  | hash | fadd | ftest => simp [assemble, Op.usesFD, Op.usesFAFB, Op.format]
  | fnew =>
    obtain ⟨n, r, hp⟩ := lengthOk_P_iff.mp hpl
    obtain ⟨n', r', hq⟩ := lengthOk_P_iff.mp hql
    simp [assemble, Op.usesFD, Op.usesFAFB, Op.format, Packet.operand, hp, hq]
  | fload =>
    obtain ⟨W, k, c, ws, hp, -⟩ := lengthOk_L_iff.mp hpl
    obtain ⟨W', k', c', ws', hq, -⟩ := lengthOk_L_iff.mp hql
    simp [assemble, Op.usesFD, Op.usesFAFB, Op.format, Packet.operand, hp, hq]
  | fcount | funion | fstore =>
    simp [assemble, Op.usesFD, Op.usesFAFB, Op.format, lengthOk_S_iff.mp hpl, lengthOk_S_iff.mp hql]

/-- Of two packets of one command, the words outside the pad bytes are those that carry operands. -/
theorem equalExceptPad_iff {o : Op} (hpo : p.opc = o.code)
    (hpl : lengthOk o.format p.body = true) (hql : lengthOk o.format q.body = true) :
    EqualExceptPad p q ↔
      p.header = q.header ∧
        if o.format = .M then messageOf p.body = messageOf q.body else p.body = q.body := by
  unfold EqualExceptPad
  simp only [opcOf_mem_iff_format_M hpo]
  split
  next hM =>
    rw [hM] at hpl hql
    have hlen (h : wordOne p = wordOne q) : p.body.length = q.body.length := by
      have hp := wordsOf_of_lengthOk_M hpl
      have hq := wordsOf_of_lengthOk_M hql
      simp only [wordsOf] at hp hq
      omega
    rw [messageOf_eq_iff hpl hql]
    exact ⟨fun ⟨hh, _, hm⟩ => ⟨hh, hm⟩, fun ⟨hh, hone, hbytes⟩ => ⟨hh, hlen hone, hone, hbytes⟩⟩
  next => exact ⟨fun ⟨hh, _, hb⟩ => ⟨hh, hb⟩, fun ⟨hh, hb⟩ => ⟨hh, hb ▸ rfl, hb⟩⟩

/-- Settles O16: either side gives both packets one opcode, and then both say that the headers and the words that carry
operands agree. -/
theorem decodingIsUniqueUpToPad : Obligations.DecodingIsUniqueUpToPad := by
  intro p q i j hi hj
  obtain ⟨o, hpo, hpc, hpl, rfl⟩ := decode_eq_ok_iff.mp hi
  obtain ⟨o', hqo, hqc, hql, rfl⟩ := decode_eq_ok_iff.mp hj
  by_cases ho : o = o'
  · subst ho
    rw [assemble_eq_iff (hpo.trans hqo.symm) hpc hqc hpl hql, equalExceptPad_iff hpo hpl hql]
  · have hcmd : assemble o p ≠ assemble o' q := fun h => ho (by simpa using congrArg Instr.op h)
    have hpad : ¬ EqualExceptPad p q := fun ⟨hh, _⟩ => ho (by
      have hopc : o.code = o'.code := by rw [← hpo, ← hqo, Packet.opc, Packet.opc, hh]
      simpa using congrArg Op.ofByte hopc)
    exact iff_of_false hcmd hpad

/-! ## One response to every packet (30_encoding.md R82) -/

theorem taking_eq (k : Nat) (s : State) : taking k s = { s with responses := s.responses.drop k } := by
  induction k generalizing s with
  | zero => rfl
  | succ k ih =>
    rw [taking, Function.iterate_succ_apply, ← taking, ih]
    simp [hostEvent, List.drop_tail]

/-- Settles O7: the responses taken make room, and executing the packet appends one response. -/
theorem everyPacketGetsOneResponse : Obligations.EveryPacketGetsOneResponse := by
  intro s p rest k hr hc hroom
  rw [taking_eq]
  have hroom' : (s.responses.drop k).length ≤ s.responseRoom := by simpa using hroom
  obtain ⟨l, r, he, -⟩ := execPacket_transfer p (s := { s with responses := s.responses.drop k, commands := rest })
    (s' := s) rfl rfl
  have hstep := step_eq_execPacket (s := { s with responses := s.responses.drop k }) hr hc hroom'
  exact ⟨_, r, hstep.trans he, rfl, rfl⟩

/-! ## The status word (30_encoding.md R83, R85; 60_exceptions.md R191, R200) -/

/-- The three fields of a status word as a sum. -/
theorem toNat_statusWord (opc : BitVec 8) (sat : Bool) (code : BitVec 8) :
    (statusWord opc sat code).toNat = opc.toNat * 2 ^ 56 + (sat.toNat * 2 ^ 8 + code.toNat) := by
  have hopc := opc.isLt
  have hcode := code.isLt
  have hsat := sat.toNat_le
  have hflag : (if sat then 0x100#64 else 0#64).toNat = sat.toNat <<< 8 := by cases sat <;> rfl
  have htop : (opc.setWidth 64 <<< 56).toNat = opc.toNat <<< 56 := by
    simp [Nat.shiftLeft_eq]
    omega
  have hlow : (code.setWidth 64).toNat = code.toNat := BitVec.toNat_setWidth_of_le (by decide)
  have hrest : sat.toNat <<< 8 + code.toNat < 2 ^ 56 := by
    rw [Nat.shiftLeft_eq]
    omega
  rw [statusWord, BitVec.toNat_or, BitVec.toNat_or, hflag, htop, hlow, Nat.or_assoc,
    ← Nat.shiftLeft_add_eq_or_of_lt hcode, ← Nat.shiftLeft_add_eq_or_of_lt hrest, Nat.shiftLeft_eq, Nat.shiftLeft_eq]

/-- The fields of a status word, read out of it as a number; bits 55:9 are zero. -/
theorem statusWord_fields (opc : BitVec 8) (sat : Bool) (code : BitVec 8) :
    (statusWord opc sat code).toNat / 2 ^ 56 = opc.toNat ∧ (statusWord opc sat code).toNat / 2 ^ 9 % 2 ^ 47 = 0 ∧
      (statusWord opc sat code).toNat / 2 ^ 8 % 2 = sat.toNat ∧
      (statusWord opc sat code).toNat % 256 = code.toNat := by
  have hcode := code.isLt
  have hsat := sat.toNat_le
  rw [toNat_statusWord]
  omega

theorem errIllegal_mem_codesOf (n : Nat) : (errCode .errIllegal).toNat ∈ codesOf n := by
  unfold codesOf
  split_ifs <;> decide

/-- A known opcode can be answered with OK, with ERR_FORMAT, and with every error of its command. -/
theorem codes_of_op_mem_codesOf (o : Op) :
    okCode.toNat ∈ codesOf o.code.toNat ∧ (errCode .errFormat).toNat ∈ codesOf o.code.toNat ∧
      ∀ e ∈ possibleErrors o, (errCode e).toNat ∈ codesOf o.code.toNat := by
  cases o <;> decide

theorem decode_error_mem_codesOf {e : Err} (h : decode p = .error e) : (errCode e).toNat ∈ codesOf p.opc.toNat := by
  unfold decode at h
  split at h
  next => exact Except.error.inj h ▸ errIllegal_mem_codesOf _
  next o ho =>
    rw [← Op.ofByte_eq_some_iff.mp ho]
    obtain ⟨-, hformat, -⟩ := codes_of_op_mem_codesOf o
    split_ifs at h
    · exact Except.error.inj h ▸ hformat
    · exact Except.error.inj h ▸ errIllegal_mem_codesOf _

/-- The responses a packet with opcode byte `opc` can get: OK, with SAT for FADD and FUNION only, or an error code of
its own and no result. `execPacket_answers` ties the relation to `execPacket`. -/
inductive Answers (opc : BitVec 8) : Response → Prop where
  | ok {sat : Bool} {ws : List Word} (hcode : okCode.toNat ∈ codesOf opc.toNat)
      (hsat : sat = true → opc.toNat ∈ [0x11, 0x14]) : Answers opc ⟨statusWord opc sat okCode, ws⟩
  | error {e : Err} (hcode : (errCode e).toNat ∈ codesOf opc.toNat) : Answers opc ⟨statusWord opc false (errCode e), []⟩

theorem exec_answers (i : Instr) (s : State) :
    ∃ t r, exec i s = .next t ∧ t.responses = s.responses ++ [r] ∧ Answers i.op.code r := by
  obtain ⟨hok, -, herr⟩ := codes_of_op_mem_codesOf i.op
  obtain ⟨e, he, h⟩ | ⟨ws, -, h⟩ | ⟨fd, f, sat, ws, -, -, hsat, -, h⟩ := exec_cases i s
  · exact ⟨_, _, h, rfl, .error (herr e he)⟩
  · exact ⟨_, _, h, rfl, .ok hok (by simp)⟩
  · refine ⟨_, _, h, rfl, .ok hok fun hs => ?_⟩
    obtain ho | ho := hsat hs <;> rw [ho] <;> decide

theorem execPacket_answers (p : Packet) (s : State) :
    ∃ t r, execPacket p s = .next t ∧ t.responses = s.responses ++ [r] ∧ Answers p.opc r := by
  unfold execPacket
  split
  next i hd =>
    obtain ⟨o, hpo, -, -, rfl⟩ := decode_eq_ok_iff.mp hd
    simpa [hpo] using exec_answers (assemble o p) s
  next e hd => exact ⟨_, _, rfl, rfl, .error (decode_error_mem_codesOf hd)⟩

theorem Answers.status_fields {opc : BitVec 8} {r : Response} (h : Answers opc r) :
    r.status.toNat / 2 ^ 56 = opc.toNat ∧ r.status.toNat / 2 ^ 9 % 2 ^ 47 = 0 ∧
      r.status.toNat % 256 ∈ codesOf opc.toNat ∧
      (r.status.toNat / 2 ^ 8 % 2 = 1 → r.status.toNat % 256 = 0 ∧ opc.toNat ∈ [0x11, 0x14]) ∧
      (r.status.toNat % 256 ≠ 0 → r.results = []) := by
  cases h with
  | @ok sat ws hcode hsat =>
    obtain ⟨hopc, hzero, hs, hc⟩ := statusWord_fields opc sat okCode
    rw [hs, hc]
    exact ⟨hopc, hzero, hcode, fun h => ⟨rfl, hsat (by simpa using h)⟩, fun h => absurd rfl h⟩
  | @error e hcode =>
    obtain ⟨hopc, hzero, hs, hc⟩ := statusWord_fields opc false (errCode e)
    rw [hs, hc]
    exact ⟨hopc, hzero, hcode, nofun, fun _ => rfl⟩

/-- Settles O8: the step executes the packet, and a packet's answer has the fields of `Answers`. -/
theorem responseStatusIsLegal : Obligations.ResponseStatusIsLegal := by
  intro s t p rest hr hc hroom hstep
  rw [step_eq_execPacket hr hc hroom] at hstep
  obtain ⟨u, r, hu, hresp, hans⟩ := execPacket_answers p { s with commands := rest }
  obtain rfl := Host.Outcome.next.inj (hstep.symm.trans hu)
  rw [opcOf_eq_toNat_opc]
  exact ⟨r, hresp, hans.status_fields⟩

end Sys2Proof.Machine
end

section
/-! PROOFS, family 41_filter_construct.md: the probe count of a new filter is the floor of R133, with the spec's first
values, and FNEW refuses exactly the operands of R136. -/

namespace Sys2Proof.Machine

open Sys2Proof.Claims

/-! ## The probe count (41_filter_construct.md R133) -/

/-- The formula of R133 over the integers: the logarithm is not negative, so the two floors agree. -/
theorem natCast_sizeProbes {p : ℕ} (h : 2 ≤ p) : (sizeProbes p : ℤ) = ⌊(14 / 10 : ℝ) * Real.log p⌋ + 1 := by
  have hlog : 0 ≤ (14 / 10 : ℝ) * Real.log p := mul_nonneg (by norm_num) (Real.log_natCast_nonneg p)
  rw [sizeProbes_eq h, Nat.cast_succ, Int.natCast_floor_eq_floor hlog]

/-- A larger inverse rate never takes fewer probes. -/
theorem sizeProbes_mono {p q : ℕ} (h : 2 ≤ p) (hpq : p ≤ q) : sizeProbes p ≤ sizeProbes q := by
  have hp : (0 : ℝ) < p := by exact_mod_cast two_pos.trans_le h
  rw [sizeProbes_eq h, sizeProbes_eq (h.trans hpq)]
  gcongr

/-- Between two inverse rates with the same probe count every one has it. -/
theorem sizeProbes_eq_of_ends {lo hi k p : ℕ} (h : 2 ≤ lo) (hlo : sizeProbes lo = k) (hhi : sizeProbes hi = k)
    (hp : lo ≤ p) (hp' : p ≤ hi) : sizeProbes p = k :=
  le_antisymm (hhi ▸ sizeProbes_mono (h.trans hp) hp') (hlo ▸ sizeProbes_mono h hp)

/-- The first values of R133: the least and the largest inverse rate of each probe count, and the count. -/
def firstProbeCounts : List (ℕ × ℕ × ℕ) :=
  [(2, 2, 1), (3, 4, 2), (5, 8, 3), (9, 17, 4), (18, 35, 5), (36, 72, 6), (73, 148, 7), (149, 303, 8), (304, 619, 9),
    (620, 1265, 10)]

/-- The model computes the count of each row at both of the row's ends. -/
theorem sizeProbes_at_ends : ∀ row ∈ firstProbeCounts,
    2 ≤ row.1 ∧ sizeProbes row.1 = row.2.2 ∧ sizeProbes row.2.1 = row.2.2 := by decide +kernel

/-- Settles O21: the model's value is the exact floor and bounded on every operand; the spec's rows are computed at
their ends and filled in between by monotonicity. -/
theorem sizeProbesIsExact : Obligations.SizeProbesIsExact := by
  refine ⟨fun p h => ⟨natCast_sizeProbes h, sizeProbes_pos _, sizeProbes_le h p.isLt⟩, ?_⟩
  intro lo hi k hrow p hlo hhi
  obtain ⟨h2, hatLo, hatHi⟩ := sizeProbes_at_ends (lo, hi, k) hrow
  exact sizeProbes_eq_of_ends h2 hatLo hatHi hlo hhi

/-! ## The statements' words for an error response -/

theorem opcodeNumber_eq (i : Instr) : opcodeNumber i = i.op.code.toNat := by cases i <;> rfl

/-- The status word the statements write as a number is the one the block sends. -/
theorem status_toNat (opc : BitVec 8) (sat : Bool) (code : BitVec 8) :
    status opc.toNat sat code.toNat = statusWord opc sat code := by
  have hnum : opc.toNat * 2 ^ 56 + (if sat then 2 ^ 8 else 0) + code.toNat = (statusWord opc sat code).toNat := by
    rw [toNat_statusWord]
    cases sat <;> simp [Nat.add_assoc]
  rw [status, hnum, BitVec.ofNat_toNat, BitVec.setWidth_eq]

/-- Raising an error in a command is failing it with the error's code (60_exceptions.md R190). -/
theorem raise_eq_failed (i : Instr) (e : Err) (s : State) :
    raise i.op e s = .next (failed s i (errCode e).toNat) := by
  rw [raise_eq, failed, opcodeNumber_eq, status_toNat]
  rfl

/-! ## FNEW's checks (41_filter_construct.md R136) -/

theorem rateLegal_iff {p : Word} : rateLegal p = true ↔ 2 ≤ p.toNat := decide_eq_true_iff

/-- The word count of a new filter fits a slot that its minimum word count fits. -/
theorem newFilter_W_le {maxlgw n p : ℕ} (h : sizeWords n p ≤ 2 ^ maxlgw) : (newFilter maxlgw n p).W ≤ 2 ^ maxlgw := by
  obtain ⟨j, hj, hW, -⟩ := wordCount_spec h
  exact hW.trans_le (Nat.pow_le_pow_right two_pos hj)

/-- Settles O23, one path of FNEW for each clause. -/
theorem fnewRefusesBadSizes : Obligations.FnewRefusesBadSizes := by
  intro fd n p s hs
  have hslot : slotExists s fd = true := (slotExists_iff s fd).mpr hs
  refine ⟨fun hp => ?_, fun hp hn => ?_, fun hp hn => ?_⟩
  · have hrate : rateLegal p = false := Bool.eq_false_iff.mpr fun h => Nat.not_le.mpr hp (rateLegal_iff.mp h)
    exact (execFnew_errParam hslot hrate).trans (raise_eq_failed (.fnew fd n p) .errParam s)
  · exact (execFnew_errCapacity hslot (rateLegal_iff.mpr hp) hn).trans
      (raise_eq_failed (.fnew fd n p) .errCapacity s)
  · exact ⟨_, _, execFnew_ok hslot (rateLegal_iff.mpr hp) hn, s.slot_setSlot_same fd _ hslot, newFilter_W_le hn⟩

end Sys2Proof.Machine
end

section
/-! PROOFS, family 42_filter_insert_test.md: the closed form of the probe positions (R141), and what an FADD does to its
slot and answers (R145 to R147). -/

namespace Sys2Proof.Machine

open Sys2Proof.Claims

/-! ## The probe positions (42_filter_insert_test.md R140, R141) -/

/-- Adding in 64 bits is adding modulo m, because m divides 2^64. -/
theorem toNat_add_modEq_bits {W j : ℕ} (hW : W = 2 ^ j) (hj : j + 6 ≤ 64) (p q : Word) :
    (p + q).toNat ≡ p.toNat + q.toNat [MOD 64 * W] := by
  have hdvd : 64 * W ∣ 2 ^ 64 := by
    have hm : 64 * W = 2 ^ (j + 6) := by rw [hW, pow_add]; ring
    exact hm ▸ pow_dvd_pow 2 hj
  rw [BitVec.toNat_add]
  exact (Nat.mod_modEq _ _).of_dvd hdvd

/-- The probe loop from `P = p` visits `(p + I * q) mod m` for I from 1 to k. -/
theorem probePositions_eq_map {W j : ℕ} (hW : W = 2 ^ j) (hj : j + 6 ≤ 64) (q : Word) (k : ℕ) (p : Word) :
    probePositions (trunc W) q k p =
      (List.range k).map fun I => (p.toNat + (I + 1) * q.toNat) % (64 * W) := by
  induction k generalizing p with
  | zero => rfl
  | succ k ih =>
    have hadd := toNat_add_modEq_bits hW hj p q
    have hhead : ((p + q) &&& trunc W).toNat = (p.toNat + (0 + 1) * q.toNat) % (64 * W) := by
      rw [toNat_and_trunc hW hj, zero_add, one_mul]
      exact hadd
    have htail (I : ℕ) : ((p + q).toNat + (I + 1) * q.toNat) % (64 * W) =
        (p.toNat + (I + 1 + 1) * q.toNat) % (64 * W) := by
      rw [show p.toNat + (I + 1 + 1) * q.toNat = p.toNat + q.toNat + (I + 1) * q.toNat by ring]
      exact hadd.add_right _
    rw [probePositions, ih, hhead, List.range_succ_eq_map, List.map_cons, List.map_map]
    simp only [htail, Function.comp_def, Nat.succ_eq_add_one]

/-- Settles O24: the closed form of the probe loop, started from the two hash words. -/
theorem probePositionsFollowTheRecurrence : Obligations.ProbePositionsFollowTheRecurrence := by
  intro f maxlgw msg hf hm
  obtain ⟨j, hj, hW⟩ := hf.pow2
  exact probePositions_eq_map hW (by omega) _ _ _

/-! ## FADD (42_filter_insert_test.md R145 to R147) -/

/-- A command that puts a filter into slot `fd` and responds keeps the frame of one that writes `fd`. -/
theorem onlySlotChanged_setSlot_emit (fd : SlotNum) (s : State) (g : Filter) (r : Response) :
    OnlySlotChanged fd s ((s.setSlot fd g).emit r) r where
  maxlgw := rfl
  responseRoom := rfl
  commandRoom := rfl
  nslots := by simp
  resetIn := rfl
  incoming := rfl
  commands := rfl
  responses := rfl
  slots j hj := by simp [hj.symm]

theorem testAll_positions (f : Filter) (msg : List Byte) : testAll (positions f msg) f.words = allSet f msg := rfl

/-- The count goes up exactly when a bit was newly set and the count is not yet IMAX (R146). -/
theorem countAfterAdd_eq (hasAll : Bool) (c : Word) :
    countAfterAdd hasAll c = (if hasAll ∨ c = IMAX then c else c + 1#64, !hasAll && c == IMAX) := by
  cases hasAll with
  | true => simp [countAfterAdd]
  | false => by_cases hc : c = IMAX <;> simp [countAfterAdd, hc]

/-- The count after an FADD, and its SAT, by the membership before it. -/
theorem addTo_count_sat (f : Filter) (msg : List Byte) :
    (addTo f msg).1.count = (if allSet f msg ∨ f.count = IMAX then f.count else f.count + 1#64) ∧
      (addTo f msg).2.2 = (!allSet f msg && f.count == IMAX) := by
  rw [← Prod.mk.injEq, addTo_count, countAfterAdd_eq, testAll_positions]

theorem flagWord_eq_zeroOrOne (b : Bool) : flagWord b = zeroOrOne b := rfl

/-- The response of a command that succeeded, in the statements' words. -/
theorem respond_eq_status (i : Instr) (sat : Bool) (ws : List Word) (s : State) :
    respond i.op sat ws s = .next (s.emit ⟨status (opcodeNumber i) sat 0, ws⟩) := by
  rw [respond_eq, opcodeNumber_eq, ← status_toNat]
  rfl

/-- FADD's outcome on a VALID slot: the slot holds `addTo`'s filter, and the answer tells membership before and SAT. -/
theorem exec_fadd_eq {s : State} {fd : SlotNum} {f : Filter} (hf : s.slot fd = some f) (msg : List Byte) :
    exec (.fadd fd msg) s = .next ((s.setSlot fd (addTo f msg).1).emit
      ⟨status 0x11 (!allSet f msg && f.count == IMAX) 0, [zeroOrOne (allSet f msg)]⟩) := by
  obtain ⟨-, hsat⟩ := addTo_count_sat f msg
  rw [← hsat, ← flagWord_eq_zeroOrOne, ← testAll_positions, ← addTo_hasAll]
  exact (execFadd_ok hf).trans (respond_eq_status (.fadd fd msg) _ _ _)

/-- Settles O25: FADD replaces its slot's filter by `addTo`, whose bits, count and flags the laws above give. -/
theorem faddSetsTheProbedBits : Obligations.FaddSetsTheProbedBits := by
  intro fd msg s f hf
  obtain ⟨hcount, -⟩ := addTo_count_sat f msg
  exact ⟨_, _, exec_fadd_eq hf msg, onlySlotChanged_setSlot_emit fd s _ _,
    s.slot_setSlot_same fd _ (slotExists_of_slot s fd f hf), rfl, rfl, addTo_bit f msg, hcount⟩

end Sys2Proof.Machine
end

section
/-! PROOFS, family 43_filter_union.md: what FUNION puts into its destination (R163 to R168) and leaves alone (R169), the
operands it refuses (R161, R162), and membership after it (R171). -/

namespace Sys2Proof.Machine

open Sys2Proof.Claims

variable {s : State} {fd fa fb : SlotNum} {a b : Filter} {maxlgw : ℕ}

/-! ## The merged array (43_filter_union.md R163, R164) -/

@[simp] theorem unionOf_W (a b : Filter) : (unionOf a b).1.W = a.W := rfl
@[simp] theorem unionOf_probes (a b : Filter) : (unionOf a b).1.probes = a.probes := rfl

/-- Every word of the union is the OR of the sources' words (R163). -/
theorem read_unionOf (ha : a.Legal maxlgw) (hb : b.Legal maxlgw) (hW : a.W = b.W) (J : ℕ) :
    Memory.read (unionOf a b).1.words J = Memory.read a.words J ||| Memory.read b.words J :=
  Memory.read_orInto ha.words (hW ▸ hb.words : Memory.wf a.W b.words = true) J

/-- Every bit of the union is the OR of the sources' bits. -/
theorem bit_unionOf (ha : a.Legal maxlgw) (hb : b.Legal maxlgw) (hW : a.W = b.W) (n : ℕ) :
    Memory.bit (unionOf a b).1.words n = (Memory.bit a.words n || Memory.bit b.words n) := by
  simp only [Memory.bit, read_unionOf ha hb hW, BitVec.getLsbD_or]

/-- The statements' number of 1 bits, summed over the words, is the model's, summed over the listed words (R164). -/
theorem onesIn_eq_setBits {W : ℕ} {m : Memory} (hm : Memory.wf W m = true) : onesIn W m = Memory.setBits m := by
  simp only [onesIn, onesOf, setBits_eq_sum hm, popcount_eq_sum]

/-! ## The count of the union (43_filter_union.md R166, R168) -/

theorem unionOf_count (a b : Filter) : (unionOf a b).1.count =
    (unionCount a.W a.probes.toNat (Memory.setBits (unionOf a b).1.words)).1 := rfl

theorem unionOf_sat (a b : Filter) : (unionOf a b).2 =
    (unionCount a.W a.probes.toNat (Memory.setBits (unionOf a b).1.words)).2 := rfl

theorem unionCount_full (W k : ℕ) : unionCount W k (64 * W) = (IMAX, true) := if_pos rfl

theorem unionCount_of_ne {W k x : ℕ} (hx : x ≠ 64 * W) :
    unionCount W k x = (BitVec.ofNat 64 (est (64 * W) k x), false) := if_neg hx

/-- SAT tells whether every bit is set (R168). -/
theorem unionCount_sat (W k x : ℕ) : (unionCount W k x).2 = (x == 64 * W) := by
  by_cases hx : x = 64 * W
  · simp [hx, unionCount_full]
  · simp [hx, unionCount_of_ne]

/-- An estimate fits the count word (00_scope.md R8). -/
theorem toNat_unionCount {W k x : ℕ} (hk : 0 < k) (hx : x < 64 * W) (hm : 64 * W ≤ 2 ^ 54) :
    (unionCount W k x).1.toNat = est (64 * W) k x := by
  have hest := est_lt hk hx hm
  rw [unionCount_of_ne hx.ne, BitVec.toNat_ofNat, Nat.mod_eq_of_lt (hest.trans (by decide))]

/-! ## FUNION on compatible sources (43_filter_union.md R160, R163, R169, R170) -/

/-- FUNION's outcome on compatible sources apart from the destination: the destination holds the union, the sources and
all other slots are as they were. -/
theorem exec_funion_ok (hd : SlotPresent s fd) (ha : s.slot fa = some a) (hb : s.slot fb = some b) (hda : fd ≠ fa)
    (hdb : fd ≠ fb) (hW : a.W = b.W) (hk : a.probes = b.probes) :
    ∃ t, exec (.funion fd fa fb) s = .next t ∧ OnlySlotChanged fd s t ⟨status 0x14 (unionOf a b).2 0, []⟩ ∧
      t.slot fd = some (unionOf a b).1 ∧ t.slot fa = some a ∧ t.slot fb = some b := by
  have hslot : slotExists s fd = true := (slotExists_iff s fd).mpr hd
  have hexec := execFunion_ok hslot ha hb (by simp [hda, hdb]) (compatible_iff.mpr ⟨hW, hk⟩)
  exact ⟨_, hexec.trans (respond_eq_status (.funion fd fa fb) _ _ _), onlySlotChanged_setSlot_emit fd s _ _,
    s.slot_setSlot_same fd _ hslot, (s.slot_setSlot_ne fd fa _ hda.symm).trans ha,
    (s.slot_setSlot_ne fd fb _ hdb.symm).trans hb⟩

/-- Settles O34: FUNION puts `unionOf` into the destination, whose words, SAT and count the laws above give. -/
theorem funionMergesTheSources : Obligations.FunionMergesTheSources := by
  intro fd fa fb s a b hd ha hb hda hdb hW hk hla hlb hm
  obtain ⟨t, hexec, hframe, hfd, hfa, hfb⟩ := exec_funion_ok hd ha hb hda hdb hW hk
  have hwf : Memory.wf a.W (unionOf a b).1.words = true := wf_unionOf hla hlb hW
  refine ⟨t, _, hexec, hfd, rfl, rfl, read_unionOf hla hlb hW, ?_, ?_, ?_, ?_, hfa, hfb⟩ <;>
    rw [unionOf_W, onesIn_eq_setBits hwf]
  · exact setBits_le hwf
  · rwa [unionOf_sat, unionCount_sat] at hframe
  · intro hfull
    rw [unionOf_count, hfull, unionCount_full]
    rfl
  · intro hlt
    rw [unionOf_count, unionOf_probes]
    exact toNat_unionCount (legal_probes_pos hla) hlt (legal_bits_le hla hm)

/-! ## FUNION's checks (43_filter_union.md R161, R162) -/

/-- Settles O35, one path of FUNION for each clause. -/
theorem funionRefusesBadOperands : Obligations.FunionRefusesBadOperands := by
  intro fd fa fb s hd ha hb
  have hslot : slotExists s fd = true := (slotExists_iff s fd).mpr hd
  have hslots : (slotExists s fd && slotExists s fa && slotExists s fb) = true := by
    rw [hslot, (slotExists_iff s fa).mpr ha, (slotExists_iff s fb).mpr hb]
    rfl
  refine ⟨fun hempty => ?_, fun a b ha hb => ⟨fun hsource => ?_, fun hda hdb hdiff => ?_⟩⟩
  · exact (execFunion_errNofilter hslots hempty).trans (raise_eq_failed (.funion fd fa fb) .errNofilter s)
  · exact (execFunion_errAlias hslot ha hb (by simpa using hsource)).trans
      (raise_eq_failed (.funion fd fa fb) .errAlias s)
  · have hc : compatible a b = false := Bool.eq_false_iff.mpr (mt compatible_iff.mp (not_and_or.mpr hdiff))
    exact (execFunion_errIncompat hslot ha hb (by simp [hda, hdb]) hc).trans
      (raise_eq_failed (.funion fd fa fb) .errIncompat s)

/-! ## Membership after a union (43_filter_union.md R171) -/

/-- FTEST's outcome on a VALID slot, in the statements' words. -/
theorem exec_ftest_eq (ha : s.slot fa = some a) (x : List Byte) :
    exec (.ftest fa x) s = .next (replied s ⟨status 0x12 false 0, [zeroOrOne (allSet a x)]⟩) :=
  (execFtest_ok ha).trans (respond_eq_status (.ftest fa x) _ _ _)

/-- The three filters probe the same positions, and every bit of a source is a bit of the union. -/
theorem allSet_unionOf (hla : a.Legal maxlgw) (hlb : b.Legal maxlgw) (hW : a.W = b.W) (hk : a.probes = b.probes)
    {x : List Byte} (h : allSet a x = true ∨ allSet b x = true) : allSet (unionOf a b).1 x = true := by
  have hpa : positions (unionOf a b).1 x = positions a x := positions_congr rfl rfl x
  simp only [allSet, List.all_eq_true, ← positions_congr hW hk x] at h
  simp only [allSet, List.all_eq_true, hpa, bit_unionOf hla hlb hW, Bool.or_eq_true]
  exact fun n hn => h.imp (· n hn) (· n hn)

/-- The filter of program P2 that holds "0", "2" and "4" (95_test_vectors.md section 6). -/
def evenDigits : Filter := ⟨1, 7#32, 3#64, [(0, 0xb04138308a044704#64)]⟩

/-- The filter of program P2 that holds "1" and "3". -/
def oddDigits : Filter := ⟨1, 7#32, 2#64, [(0, 0x08040155d4402010#64)]⟩

/-- The message "38", whose probed bits are set partly by the one filter and partly by the other. -/
def thirtyEight : List Byte := [0x33, 0x38]

/-- Program P2 before its FUNION: the two filters in slots 0 and 1 of the reset state. -/
def beforeUnion : State := (State.reset.setSlot 0 evenDigits).setSlot 1 oddDigits

theorem legal_evenDigits : evenDigits.Legal State.reset.maxlgw :=
  ⟨⟨0, Nat.zero_le _, rfl⟩, by decide, by decide +kernel, by decide⟩

theorem legal_oddDigits : oddDigits.Legal State.reset.maxlgw :=
  ⟨⟨0, Nat.zero_le _, rfl⟩, by decide, by decide +kernel, by decide⟩

/-- Reset leaves every slot EMPTY, and the default parameters are legal. -/
theorem inv_reset : State.reset.Inv :=
  ⟨by decide, by decide, fun f hf => by simp [State.reset, State.resetWith] at hf⟩

theorem inv_beforeUnion : beforeUnion.Inv := (inv_reset.setSlot 0 legal_evenDigits).setSlot 1 legal_oddDigits

/-- The counterexample of 90_conflicts.md C6: only the union has all probed bits of "38". The union is not full. -/
theorem thirtyEight_only_in_union :
    allSet evenDigits thirtyEight = false ∧ allSet oddDigits thirtyEight = false ∧
      allSet (unionOf evenDigits oddDigits).1 thirtyEight = true ∧ (unionOf evenDigits oddDigits).2 = false := by
  decide +kernel

/-- Settles O36: a source's bits are the union's, and the union of program P2 contains a message of neither source. -/
theorem unionKeepsMembership : Obligations.UnionKeepsMembership := by
  constructor
  · intro fd fa fb s a b x hd ha hb hda hdb hW hk hla hlb hx
    obtain ⟨t, hexec, -, hfd, -, -⟩ := exec_funion_ok hd ha hb hda hdb hW hk
    have htest := exec_ftest_eq hfd x
    rw [allSet_unionOf hla hlb hW hk hx] at htest
    exact ⟨t, hexec, htest⟩
  · obtain ⟨heven, hodd, hunion, hsat⟩ := thirtyEight_only_in_union
    have hpresent : SlotPresent beforeUnion 2 := by unfold SlotPresent; decide
    obtain ⟨t, hexec, hframe, hfd, hfa, hfb⟩ := exec_funion_ok (s := beforeUnion) (fa := 0) (fb := 1) hpresent
      (a := evenDigits) (b := oddDigits) rfl rfl (by decide) (by decide) rfl rfl
    have htestA := exec_ftest_eq hfa thirtyEight
    have htestB := exec_ftest_eq hfb thirtyEight
    have htestD := exec_ftest_eq hfd thirtyEight
    rw [heven] at htestA
    rw [hodd] at htestB
    rw [hunion] at htestD
    rw [hsat] at hframe
    exact ⟨2, 0, 1, beforeUnion, t, thirtyEight, inv_beforeUnion, hexec, hframe.responses, htestA, htestB, htestD⟩

end Sys2Proof.Machine
end

section
/-! PROOFS, family 44_filter_transfer.md: what FLOAD puts into its slot (R180, R182) and refuses (R181), and that FLOAD
undoes FSTORE (R185). -/

namespace Sys2Proof.Machine

open Sys2Proof.Claims

variable {s : State} {fd fa : SlotNum} {f : Filter} {W k c : Word} {maxlgw : ℕ}

/-! ## FLOAD (44_filter_transfer.md R180 to R182) -/

/-- FLOAD's checks but the capacity, in the statements' words (R181). -/
theorem loadOperandsLegal_iff_ranges : loadOperandsLegal W k c = true ↔
    PowerOfTwo W.toNat ∧ 1 ≤ k.toNat ∧ k.toNat < 2 ^ 32 ∧ c.toNat < 2 ^ 63 := by
  rw [loadOperandsLegal_iff, ← Nat.one_le_iff_ne_zero, and_assoc]
  rfl

/-- FLOAD's outcome on legal operands: the destination holds the loaded filter, all other slots are as they were. -/
theorem exec_fload_ok (hd : SlotPresent s fd) (hl : loadOperandsLegal W k c = true) (hW : W.toNat ≤ 2 ^ s.maxlgw)
    (ws : List Word) :
    ∃ t, exec (.fload fd W k c ws) s = .next t ∧ OnlySlotChanged fd s t ⟨status 0x18 false 0, []⟩ ∧
      t.slot fd = some (loadedFilter W k c ws) ∧ ∀ n, n ≠ fd → t.slot n = s.slot n := by
  have hslot : slotExists s fd = true := (slotExists_iff s fd).mpr hd
  exact ⟨_, (execFload_ok hslot hl hW).trans (respond_eq_status (.fload fd W k c ws) _ _ _),
    onlySlotChanged_setSlot_emit fd s _ _, s.slot_setSlot_same fd _ hslot, fun n hn => s.slot_setSlot_ne fd n _ hn⟩

/-- The probe count of a loaded filter is the whole operand, which is below 2^32. -/
theorem toNat_loadedFilter_probes (hk : k.toNat < 2 ^ 32) (ws : List Word) :
    (loadedFilter W k c ws).probes.toNat = k.toNat := by
  rw [loadedFilter, BitVec.toNat_setWidth, Nat.mod_eq_of_lt hk]

/-- Word `J` of a loaded filter is operand word `J` (R182). -/
theorem read_loadedFilter (ws : List Word) (J : ℕ) :
    Memory.read (loadedFilter W k c ws).words J = ws.getD J 0#64 := by
  simp [loadedFilter, Memory.read_ofWords]

/-- Settles O37: FLOAD puts `loadedFilter` into its slot, whose fields and words the laws above give. -/
theorem floadReplacesTheFilter : Obligations.FloadReplacesTheFilter := by
  intro fd W k c ws s hd _ hpow hW hk1 hk2 hc
  have hl : loadOperandsLegal W k c = true := loadOperandsLegal_iff_ranges.mpr ⟨hpow, hk1, hk2, hc⟩
  obtain ⟨t, hexec, hframe, hfd, -⟩ := exec_fload_ok hd hl hW ws
  exact ⟨t, _, hexec, hframe, hfd, rfl, toNat_loadedFilter_probes hk2 ws, rfl, read_loadedFilter ws⟩

/-- Settles O38, one path of FLOAD for each clause. -/
theorem floadRefusesBadOperands : Obligations.FloadRefusesBadOperands := by
  intro fd W k c ws s hd
  have hslot : slotExists s fd = true := (slotExists_iff s fd).mpr hd
  refine ⟨fun hbad => ?_, fun hpow hk1 hk2 hc hW => ?_⟩
  · have hl : loadOperandsLegal W k c = false := Bool.eq_false_iff.mpr fun h => by
      obtain ⟨hpow, hk1, hk2, hc⟩ := loadOperandsLegal_iff_ranges.mp h
      obtain hW | hrange := hbad
      · exact hW hpow
      · omega
    exact (execFload_errParam hslot hl).trans (raise_eq_failed (.fload fd W k c ws) .errParam s)
  · have hl : loadOperandsLegal W k c = true := loadOperandsLegal_iff_ranges.mpr ⟨hpow, hk1, hk2, hc⟩
    exact (execFload_errCapacity hslot hl hW).trans (raise_eq_failed (.fload fd W k c ws) .errCapacity s)

/-! ## The answers of a VALID slot -/

/-- FCOUNT's outcome on a VALID slot, in the statements' words. -/
theorem exec_fcount_eq (ha : s.slot fa = some f) :
    exec (.fcount fa) s = .next (replied s ⟨status 0x13 false 0, [f.count]⟩) :=
  (execFcount_ok ha).trans (respond_eq_status (.fcount fa) _ _ _)

/-- FSTORE's outcome on a VALID slot, in the statements' words (R183). -/
theorem exec_fstore_eq (ha : s.slot fa = some f) :
    exec (.fstore fa) s = .next (replied s ⟨status 0x19 false 0, storedWords f⟩) :=
  (execFstore_ok ha).trans (respond_eq_status (.fstore fa) _ _ _)

/-! ## Storing and loading (44_filter_transfer.md R185) -/

theorem legal_W_le (hf : f.Legal maxlgw) : f.W ≤ 2 ^ maxlgw := by
  obtain ⟨j, hj, hW⟩ := hf.pow2
  exact hW.trans_le (Nat.pow_le_pow_right two_pos hj)

/-- The word count of a legal filter is a whole operand of FLOAD (00_scope.md R8). -/
theorem toNat_ofNat_legal_W (hf : f.Legal maxlgw) (hm : Config.MaxlgwLegal maxlgw) :
    (BitVec.ofNat 64 f.W).toNat = f.W := by
  have hlt : 2 ^ maxlgw < 2 ^ 64 := Nat.pow_lt_pow_right one_lt_two (hm.trans_lt (by decide))
  rw [BitVec.toNat_ofNat, Nat.mod_eq_of_lt ((legal_W_le hf).trans_lt hlt)]

/-- The operand words that FSTORE answers for a legal filter are legal operands of FLOAD. -/
theorem loadOperandsLegal_stored (hf : f.Legal maxlgw) (hm : Config.MaxlgwLegal maxlgw) :
    loadOperandsLegal (BitVec.ofNat 64 f.W) (f.probes.setWidth 64) f.count = true := by
  have hk : (f.probes.setWidth 64).toNat = f.probes.toNat := BitVec.toNat_setWidth_of_le (by decide)
  have hIMAX : IMAX.toNat = 2 ^ 63 - 1 := by decide
  have hcount := hf.count
  rw [loadOperandsLegal_iff, toNat_ofNat_legal_W hf hm, hk]
  exact ⟨hf.pow2.imp fun _ => And.right, ⟨(legal_probes_pos hf).ne', f.probes.isLt⟩, by omega⟩

/-- Loading what FSTORE answers gives the filter back: the canonical word array with these words is unique. -/
theorem loadedFilter_stored (hf : f.Legal maxlgw) (hm : Config.MaxlgwLegal maxlgw) :
    loadedFilter (BitVec.ofNat 64 f.W) (f.probes.setWidth 64) f.count (Memory.dump f.W f.words) = f := by
  have hk : (f.probes.setWidth 64).setWidth 32 = f.probes := by simp
  rw [loadedFilter, toNat_ofNat_legal_W hf hm, hk, Memory.ofWords_dump hf.words]

theorem compatible_refl (f : Filter) : compatible f f = true := compatible_iff.mpr ⟨rfl, rfl⟩

/-- Settles O40: FLOAD puts the stored filter itself into the other slot, and a slot's answers are its filter's. -/
theorem storeThenLoadCopiesTheFilter : Obligations.StoreThenLoadCopiesTheFilter := by
  intro fa fb s f hinv hfa hfb
  have hf : f.Legal s.maxlgw := hinv.legal_of_slot hfa
  have hW := toNat_ofNat_legal_W hf hinv.maxlgw
  obtain ⟨t, hload, hframe, htb, hother⟩ := exec_fload_ok (s := replied s ⟨status 0x19 false 0, storedWords f⟩) hfb
    (loadOperandsLegal_stored hf hinv.maxlgw) (hW.trans_le (legal_W_le hf)) (Memory.dump f.W f.words)
  rw [loadedFilter_stored hf hinv.maxlgw] at htb
  have hta : t.slot fa = some f := by
    by_cases hab : fa = fb
    · exact hab ▸ htb
    · exact (hother fa hab).trans hfa
  exact ⟨_, _, _, _, _, exec_fstore_eq hfa, rfl, (Memory.length_dump _ _).trans hW.symm, t, hload, hframe, htb, hta,
    compatible_refl f, fun x => ⟨_, exec_ftest_eq hta x, exec_ftest_eq htb x⟩,
    ⟨_, exec_fcount_eq hta, exec_fcount_eq htb⟩, _, exec_fstore_eq hta, exec_fstore_eq htb⟩

end Sys2Proof.Machine
end

section
/-! PROOFS, family 60_exceptions.md: the packets that decoding refuses (R192, R193), the commands that end in ERR_SLOT
(R194) and ERR_NOFILTER (R197), and what any error leaves alone (R190). -/

namespace Sys2Proof.Machine

open Sys2Proof.Claims

variable {p : Packet} {o : Op} {s : State} {i : Instr} {n fd fa fb : SlotNum}

/-! ## Illegal headers (60_exceptions.md R192) -/

/-- The opcode bytes of the map are the codes of the eight commands (30_encoding.md R75). -/
theorem opcOf_mem_knownOpcodes_iff : opcOf p ∈ knownOpcodes ↔ ∃ o : Op, p.opc = o.code := by
  have hcodes : knownOpcodes = Op.all.map fun o => o.code.toNat := rfl
  have hall (o : Op) : o ∈ Op.all := by cases o <;> decide
  simp only [opcOf_eq_toNat_opc, hcodes, List.mem_map, hall, true_and, BitVec.toNat_inj, eq_comm]

/-- A clean header, by the numbers in its fields; FA and FB together are bits 51:44. -/
theorem headerClean_iff : headerClean o p = true ↔
    p.header.toNat % 2 ^ 44 = 0 ∧ (o.usesFD = true ∨ p.header.toNat / 2 ^ 52 % 16 = 0) ∧
      (o.usesFAFB = true ∨ p.header.toNat / 2 ^ 44 % 256 = 0) := by
  have hfafb : p.header.toNat / 2 ^ 48 % 16 = 0 ∧ p.header.toNat / 2 ^ 44 % 16 = 0 ↔
      p.header.toNat / 2 ^ 44 % 256 = 0 := by omega
  simp only [headerClean, Bool.and_eq_true, Bool.or_eq_true, beq_iff_eq, ← BitVec.toNat_inj, toNat_rsv, toNat_fd,
    toNat_fa, toNat_fb, BitVec.toNat_ofNat, Nat.zero_mod, hfafb, and_assoc]

/-- HASH alone uses no slot field, FUNION alone uses FA and FB (30_encoding.md R75). -/
theorem uses_iff_code (o : Op) :
    (o.usesFD = true ↔ o.code.toNat ≠ 0x01) ∧ (o.usesFAFB = true ↔ o.code.toNat = 0x14) := by
  cases o <;> decide

/-- With a known opcode, an illegal header is one that is not clean. -/
theorem illegalHeader_iff (h : p.opc = o.code) : IllegalHeader p ↔ ¬ headerClean o p = true := by
  have hknown : opcOf p ∈ knownOpcodes := opcOf_mem_knownOpcodes_iff.mpr ⟨o, h⟩
  obtain ⟨hfd, hfafb⟩ := uses_iff_code o
  rw [← h, ← opcOf_eq_toNat_opc] at hfd hfafb
  rw [headerClean_iff, IllegalHeader, hfd, hfafb]
  simp only [hknown, not_true_eq_false, false_or, not_and_or, not_or, ne_eq, not_not]

/-- ERR_ILLEGAL is decided before the length is looked at (30_encoding.md R79). -/
theorem decode_eq_errIllegal_iff : decode p = .error .errIllegal ↔ IllegalHeader p := by
  unfold decode
  split
  next hnone =>
    have hunknown : opcOf p ∉ knownOpcodes := fun hmem => by
      obtain ⟨o, ho⟩ := opcOf_mem_knownOpcodes_iff.mp hmem
      simp [ho] at hnone
    exact iff_of_true rfl (.inl hunknown)
  next o ho =>
    rw [illegalHeader_iff (Op.ofByte_eq_some_iff.mp ho).symm]
    split_ifs with hclean <;> simp [hclean]

/-- A packet that decoding refuses is answered with the error's code and its own opcode byte, and nothing else
changes (60_exceptions.md R190). -/
theorem step_of_decode_error {e : Err} {rest : List Packet} (hd : decode p = .error e) (hr : s.resetIn = false)
    (hc : s.commands = p :: rest) (hroom : HasRoom s) :
    step s = .next (replied { s with commands := rest } ⟨status (opcOf p) false (errCode e).toNat, []⟩) := by
  rw [step_eq_execPacket hr hc hroom, execPacket, hd, opcOf_eq_toNat_opc, status_toNat]
  rfl

/-- Settles O14: the first two checks of decoding fail exactly on an illegal header. -/
theorem illegalHeadersAreRefused : Obligations.IllegalHeadersAreRefused := fun _ =>
  ⟨decode_eq_errIllegal_iff, fun _ _ hr hc hroom h => step_of_decode_error (decode_eq_errIllegal_iff.mpr h) hr hc hroom⟩

/-! ## Wrong lengths (60_exceptions.md R193) -/

/-- The number of words a format requires of a packet (30_encoding.md R72). -/
def wordsRequired (f : Format) (p : Packet) : Nat :=
  match f with
  | .S => 1
  | .P => 3
  | .M => 2 + (wordOne p + 7) / 8
  | .L => 4 + wordOne p

/-- A word that gives the length and is missing counts as 0, and the packet is then too short. -/
theorem lengthOk_iff_wordsOf (f : Format) : lengthOk f p.body = true ↔ wordsOf p = wordsRequired f p := by
  obtain ⟨header, body⟩ := p
  simp only [lengthOk, beq_iff_eq, wordsOf]
  cases f with
  | S | P => simp only [bodyWords, Option.some.injEq, wordsRequired]; omega
  | M =>
    cases body with
    | nil => simp [bodyWords, wordsRequired]; omega
    | cons L payload => simp [bodyWords, wordsRequired, wordOne, payloadWords_eq]; omega
  | L =>
    match body with
    | [] | [_] | [_, _] => simp [bodyWords, wordsRequired]; omega
    | W :: _ :: _ :: _ => simp [bodyWords, wordsRequired, wordOne]; omega

theorem wrongLength_iff (h : p.opc = o.code) : WrongLength p ↔ ¬ lengthOk o.format p.body = true := by
  have hopc : opcOf p = o.code.toNat := by rw [opcOf_eq_toNat_opc, h]
  rw [lengthOk_iff_wordsOf, WrongLength, hopc]
  cases o <;> simp [Op.code, Op.format, wordsRequired] <;> omega

/-- Only a known opcode has a length to be wrong. -/
theorem decode_eq_errFormat_iff : decode p = .error .errFormat ↔ ¬ IllegalHeader p ∧ WrongLength p := by
  rw [← decode_eq_errIllegal_iff]
  unfold decode
  split
  next => simp
  next o ho =>
    rw [wrongLength_iff (Op.ofByte_eq_some_iff.mp ho).symm]
    split_ifs with hclean hlen
    · simp [hlen]
    · simp [hlen]
    · simp

/-- Settles O15: the third check of decoding fails exactly on a wrong length under a legal header. -/
theorem wrongLengthsAreRefused : Obligations.WrongLengthsAreRefused := fun _ =>
  ⟨decode_eq_errFormat_iff, fun _ _ hr hc hroom hlegal hlen =>
    step_of_decode_error (decode_eq_errFormat_iff.mpr ⟨hlegal, hlen⟩) hr hc hroom⟩

/-! ## Missing and EMPTY slots (60_exceptions.md R194, R197) -/

/-- FUNION's slot check is the check of the slots it uses. -/
theorem funion_slotsExist_iff : (slotExists s fd && slotExists s fa && slotExists s fb) = true ↔
    ∀ n ∈ usedSlots (.funion fd fa fb), slotExists s n = true := by
  simp [usedSlots, and_assoc]

theorem exec_errSlot (hn : n ∈ usedSlots i) (hx : slotExists s n = false) : exec i s = raise i.op .errSlot s := by
  cases i with
  | hash => simp [usedSlots] at hn
  | fnew => exact execFnew_errSlot (List.mem_singleton.mp hn ▸ hx)
  | fadd => exact execFadd_errSlot (List.mem_singleton.mp hn ▸ hx)
  | ftest => exact execFtest_errSlot (List.mem_singleton.mp hn ▸ hx)
  | fcount => exact execFcount_errSlot (List.mem_singleton.mp hn ▸ hx)
  | funion =>
    refine execFunion_errSlot (Bool.eq_false_iff.mpr fun hall => ?_)
    simp [funion_slotsExist_iff.mp hall n hn] at hx
  | fload => exact execFload_errSlot (List.mem_singleton.mp hn ▸ hx)
  | fstore => exact execFstore_errSlot (List.mem_singleton.mp hn ▸ hx)

theorem exec_errNofilter (hall : ∀ m ∈ usedSlots i, slotExists s m = true) (hn : n ∈ readSlots i)
    (hf : s.slot n = none) : exec i s = raise i.op .errNofilter s := by
  cases i with
  | hash | fnew | fload => simp [readSlots] at hn
  | funion fd fa fb =>
    refine execFunion_errNofilter (funion_slotsExist_iff.mpr hall) ?_
    obtain rfl | rfl : n = fa ∨ n = fb := by simpa [readSlots] using hn
    · exact .inl hf
    · exact .inr hf
  | fadd => exact execFadd_errNofilter (hall _ List.mem_cons_self) (List.mem_singleton.mp hn ▸ hf)
  | ftest => exact execFtest_errNofilter (hall _ List.mem_cons_self) (List.mem_singleton.mp hn ▸ hf)
  | fcount => exact execFcount_errNofilter (hall _ List.mem_cons_self) (List.mem_singleton.mp hn ▸ hf)
  | fstore => exact execFstore_errNofilter (hall _ List.mem_cons_self) (List.mem_singleton.mp hn ▸ hf)

/-- Settles O42: once the slot numbers have passed, the EMPTY slot is the next thing a reading command checks. -/
theorem emptySlotIsRefused : Obligations.EmptySlotIsRefused := by
  rintro i s hall ⟨n, hn, hf⟩
  exact (exec_errNofilter (fun m hm => (slotExists_iff s m).mpr (hall m hm)) hn hf).trans
    (raise_eq_failed i .errNofilter s)

/-! ## Outcomes told apart by their code -/

theorem response_eq_of_emit_eq {t : State} {r r' : Response} (h : s.emit r = t.emit r') : r = r' := by
  obtain ⟨-, hr⟩ := List.append_inj' (congrArg State.responses h) rfl
  exact List.singleton_inj.mp hr

theorem code_eq_of_statusWord_eq {opc opc' : BitVec 8} {sat sat' : Bool} {code code' : BitVec 8}
    (h : statusWord opc sat code = statusWord opc' sat' code') : code = code' := by
  obtain ⟨-, -, -, hc⟩ := statusWord_fields opc sat code
  obtain ⟨-, -, -, hc'⟩ := statusWord_fields opc' sat' code'
  exact BitVec.eq_of_toNat_eq (by rw [← hc, h, hc'])

/-- Two answers with different codes leave different states, whatever else happened to the state. -/
theorem code_eq_of_emit_eq {t : State} {opc opc' : BitVec 8} {sat sat' : Bool} {code code' : BitVec 8}
    {ws ws' : List Word} (h : s.emit ⟨statusWord opc sat code, ws⟩ = t.emit ⟨statusWord opc' sat' code', ws'⟩) :
    code = code' := by
  obtain ⟨hstatus, -⟩ := Response.mk.inj (response_eq_of_emit_eq h)
  exact code_eq_of_statusWord_eq hstatus

theorem eq_errSlot_of_errCode {e : Err} (h : errCode e = errCode .errSlot) : e = .errSlot := by
  revert h
  cases e <;> decide

theorem raise_ne_errSlot {e : Err} (h : e ≠ .errSlot) : raise o e s ≠ raise o .errSlot s := fun heq =>
  h (eq_errSlot_of_errCode (code_eq_of_emit_eq (Host.Outcome.next.inj heq)))

theorem respond_ne_errSlot {sat : Bool} {ws : List Word} {t : State} :
    respond o sat ws t ≠ raise o .errSlot s := fun heq => by
  have hcode : okCode = errCode .errSlot := code_eq_of_emit_eq (Host.Outcome.next.inj heq)
  exact absurd hcode (by decide)

theorem execFnew_ne_errSlot {n p : Word} (hd : slotExists s fd = true) :
    execFnew fd n p s ≠ raise .fnew .errSlot s := by
  cases hp : rateLegal p with
  | false => exact (execFnew_errParam hd hp).trans_ne (raise_ne_errSlot (by decide))
  | true =>
    obtain hn | hn := Nat.lt_or_ge (2 ^ s.maxlgw) (sizeWords n.toNat p.toNat)
    · exact (execFnew_errCapacity hd hp hn).trans_ne (raise_ne_errSlot (by decide))
    · exact (execFnew_ok hd hp hn).trans_ne respond_ne_errSlot

theorem execFunion_ne_errSlot {a b : Filter} (hd : slotExists s fd = true) (ha : s.slot fa = some a)
    (hb : s.slot fb = some b) : execFunion fd fa fb s ≠ raise .funion .errSlot s := by
  cases hal : (fd == fa || fd == fb) with
  | true => exact (execFunion_errAlias hd ha hb hal).trans_ne (raise_ne_errSlot (by decide))
  | false =>
    cases hc : compatible a b with
    | false => exact (execFunion_errIncompat hd ha hb hal hc).trans_ne (raise_ne_errSlot (by decide))
    | true => exact (execFunion_ok hd ha hb hal hc).trans_ne respond_ne_errSlot

theorem execFload_ne_errSlot {W k c : Word} {ws : List Word} (hd : slotExists s fd = true) :
    execFload fd W k c ws s ≠ raise .fload .errSlot s := by
  cases hl : loadOperandsLegal W k c with
  | false => exact (execFload_errParam hd hl).trans_ne (raise_ne_errSlot (by decide))
  | true =>
    obtain hW | hW := Nat.lt_or_ge (2 ^ s.maxlgw) W.toNat
    · exact (execFload_errCapacity hd hl hW).trans_ne (raise_ne_errSlot (by decide))
    · exact (execFload_ok hd hl hW).trans_ne respond_ne_errSlot

/-- With every used slot present a command does not answer ERR_SLOT: it passes on to its other checks, in the order of
60_exceptions.md R200, and to its effect. -/
theorem exec_ne_errSlot (hall : ∀ m ∈ usedSlots i, slotExists s m = true) : exec i s ≠ raise i.op .errSlot s := by
  by_cases hempty : ∃ n ∈ readSlots i, s.slot n = none
  · obtain ⟨n, hn, hf⟩ := hempty
    exact (exec_errNofilter hall hn hf).trans_ne (raise_ne_errSlot (by decide))
  have hvalid (n) (hn : n ∈ readSlots i) : ∃ f, s.slot n = some f :=
    Option.ne_none_iff_exists'.mp fun hf => hempty ⟨n, hn, hf⟩
  cases i with
  | hash => exact respond_ne_errSlot
  | fnew fd => exact execFnew_ne_errSlot (hall fd List.mem_cons_self)
  | fadd fd =>
    obtain ⟨f, hf⟩ := hvalid fd List.mem_cons_self
    exact (execFadd_ok hf).trans_ne respond_ne_errSlot
  | ftest fd =>
    obtain ⟨f, hf⟩ := hvalid fd List.mem_cons_self
    exact (execFtest_ok hf).trans_ne respond_ne_errSlot
  | fcount fd =>
    obtain ⟨f, hf⟩ := hvalid fd List.mem_cons_self
    exact (execFcount_ok hf).trans_ne respond_ne_errSlot
  | funion fd fa fb =>
    obtain ⟨a, ha⟩ := hvalid fa List.mem_cons_self
    obtain ⟨b, hb⟩ := hvalid fb (List.mem_cons_of_mem fa List.mem_cons_self)
    exact execFunion_ne_errSlot (hall fd List.mem_cons_self) ha hb
  | fload fd => exact execFload_ne_errSlot (hall fd List.mem_cons_self)
  | fstore fd =>
    obtain ⟨f, hf⟩ := hvalid fd List.mem_cons_self
    exact (execFstore_ok hf).trans_ne respond_ne_errSlot

/-- Settles O41: a missing slot fails the first check of its command, and every 4-bit slot number is below 16. -/
theorem missingSlotIsRefused : Obligations.MissingSlotIsRefused := by
  intro i s
  rw [show (0x03 : ℕ) = (errCode .errSlot).toNat from rfl, ← raise_eq_failed]
  refine ⟨fun ⟨n, hn, hmissing⟩ => exec_errSlot hn (decide_eq_false (Nat.not_lt.mpr hmissing)), fun h16 => ?_⟩
  exact exec_ne_errSlot fun m _ => decide_eq_true (h16 ▸ m.isLt)

/-! ## Errors change nothing (60_exceptions.md R190) -/

theorem statusWord_okCode_mod (opc : BitVec 8) (sat : Bool) : (statusWord opc sat okCode).toNat % 256 = 0 := by
  obtain ⟨-, -, -, hcode⟩ := statusWord_fields opc sat okCode
  exact hcode

/-- Settles O43: a response whose code is not OK comes from `raise`, which appends a bare status word. -/
theorem errorsChangeNothing : Obligations.ErrorsChangeNothing := by
  intro i s t r hexec hresp hcode
  have hanswer {u : State} {r' : Response} (h : exec i s = .next (u.emit r')) (hu : u.responses = s.responses) :
      t = u.emit r' ∧ r' = r := by
    obtain rfl := Host.Outcome.next.inj (hexec.symm.trans h)
    rw [State.emit_responses, hu] at hresp
    exact ⟨rfl, List.singleton_inj.mp (List.append_cancel_left hresp)⟩
  obtain ⟨e, -, h⟩ | ⟨ws, -, h⟩ | ⟨fd, f, sat, ws, -, -, -, -, h⟩ := exec_cases i s
  · obtain ⟨rfl, rfl⟩ := hanswer h rfl
    exact ⟨rfl, rfl⟩
  · obtain ⟨-, rfl⟩ := hanswer h rfl
    exact absurd (statusWord_okCode_mod _ _) hcode
  · obtain ⟨-, rfl⟩ := hanswer h rfl
    exact absurd (statusWord_okCode_mod _ _) hcode

end Sys2Proof.Machine
end

section
/-! PROOFS, family 70_reset_and_hazards.md: what the reset state holds, and that a reset ends in it from any state
(R221). -/

namespace Sys2Proof.Machine

@[simp] theorem State.resetWith_slot (k maxlgw responseRoom commandRoom : Nat) (n : SlotNum) :
    (State.resetWith k maxlgw responseRoom commandRoom).slot n = none :=
  List.getElem?_getD_replicate_default_eq none k n.toNat

@[simp] theorem State.resetWith_nslots (k maxlgw responseRoom commandRoom : Nat) :
    (State.resetWith k maxlgw responseRoom commandRoom).nslots = k := List.length_replicate

/-- A reset, asserted and released, forgets all of the state but its parameters and rooms. -/
theorem hostEvent_assert_release (s : State) : hostEvent .releaseReset (hostEvent .assertReset s) =
    State.resetWith s.nslots s.maxlgw s.responseRoom s.commandRoom := rfl

/-- Settles O1: a reset in any state ends in the reset state of its parameters, which holds nothing else. -/
theorem resetEmptiesSlotsAndChannels : Obligations.ResetEmptiesSlotsAndChannels := by
  refine ⟨fun s => ?_, State.resetWith_slot _ _ _ _, rfl, rfl, rfl⟩
  rw [hostEvent_assert_release]
  exact ⟨State.resetWith_slot _ _ _ _, rfl, rfl, rfl, rfl, State.resetWith_nslots _ _ _ _, rfl, rfl, rfl⟩

end Sys2Proof.Machine
end

section
/-! PROOFS, family other, the channels and runs (70_reset_and_hazards.md R220, R226, R227): what a word sent, a
response taken and a step do to the state, that no wait changes a result, and that every run is safe. -/

namespace Sys2Proof.Machine

open Sys2Proof.Claims

variable {s t u : State} {p : Packet} {rest : List Packet} {w : Word} {last : Bool}

/-! ## The host's words (70_reset_and_hazards.md R220, R226) -/

theorem hostEvent_sendWord_of_takes (h : s.takesWord = true) (w : Word) (last : Bool) :
    hostEvent (.sendWord w last) s = receiveWord s w last := if_pos h

theorem hostEvent_sendWord_of_not_takes (h : s.takesWord = false) (w : Word) (last : Bool) :
    hostEvent (.sendWord w last) s = s := by simp [hostEvent, h]

theorem takesWord_of_room (hr : s.resetIn = false) (hc : s.commands.length ≤ s.commandRoom) : s.takesWord = true :=
  (takesWord_iff s).mpr ⟨hr, hc⟩

theorem takesWord_eq_false (h : s.resetIn = true ∨ s.commandRoom < s.commands.length) : s.takesWord = false := by
  refine Bool.eq_false_iff.mpr fun ht => ?_
  obtain ⟨hr, hc⟩ := (takesWord_iff s).mp ht
  obtain h | h := h
  · simp [hr] at h
  · omega

/-- A word received goes behind the packets that wait: it commutes with taking the oldest of them away. -/
theorem receiveWord_commands_cons (hc : s.commands = p :: rest) :
    (receiveWord s w last).commands = p :: (receiveWord { s with commands := rest } w last).commands ∧
      { receiveWord s w last with commands := (receiveWord { s with commands := rest } w last).commands } =
        receiveWord { s with commands := rest } w last := by
  cases last <;> simp [receiveWord, hc]

/-! ## Steps and executed packets -/

theorem step_idle (hr : s.resetIn = false) (hc : s.commands = []) : step s = .next s := by
  simp [step, hr, fetch_nil s hc]

theorem step_of_resetIn (hr : s.resetIn = true) : step s = .next s.cleared := if_pos hr

/-- `execPacket_transfer` for a known outcome: a state with the same slots and `MAXLGW` gets the same response and the
same slots. -/
theorem execPacket_of_slots_eq {l : List (Option Filter)} {r : Response} (hs : s.slots = t.slots)
    (hm : s.maxlgw = t.maxlgw) (h : execPacket p s = .next ({ s with slots := l }.emit r)) :
    execPacket p t = .next ({ t with slots := l }.emit r) := by
  obtain ⟨l', r', h1, h2⟩ := execPacket_transfer p hs hm
  have he := Host.Outcome.next.inj (h.symm.trans h1)
  have hl : l = l' := congrArg State.slots he
  have hr : r = r' := by simpa using congrArg State.responses he
  rw [h2, hl, hr]

/-! ## Taking a response or sending a word around a step -/

theorem step_takeResponse (hr : s.resetIn = false) (hstep : step s = .next t) (hne : s.responses ≠ [])
    (hroom : HasRoom s) : step (hostEvent .takeResponse s) = .next (hostEvent .takeResponse t) := by
  obtain ⟨hr', -⟩ | ⟨-, rfl, hidle⟩ | ⟨-, p, rest, l, r, hc, -, he, rfl⟩ := step_cases hstep
  · simp [hr] at hr'
  · exact step_idle hr (hidle.resolve_right (Nat.not_lt.mpr hroom))
  · have hroom' : s.responses.tail.length ≤ s.responseRoom := by
      rw [List.length_tail]
      exact (Nat.sub_le _ _).trans hroom
    refine (step_eq_execPacket (s := hostEvent .takeResponse s) hr hc hroom').trans
      ((execPacket_of_slots_eq (s := { s with commands := rest })
        (t := { s with commands := rest, responses := s.responses.tail }) rfl rfl he).trans ?_)
    simp [hostEvent, State.emit, List.tail_append_of_ne_nil hne]

theorem step_sendWord (hr : s.resetIn = false) (hstep : step s = .next t) (hne : s.commands ≠ [])
    (hroom : s.commands.length ≤ s.commandRoom) (w : Word) (last : Bool) :
    step (hostEvent (.sendWord w last) s) = .next (hostEvent (.sendWord w last) t) := by
  rw [hostEvent_sendWord_of_takes (takesWord_of_room hr hroom)]
  obtain ⟨hr', -⟩ | ⟨-, rfl, hidle⟩ | ⟨-, p, rest, l, r, hc, hs, he, rfl⟩ := step_cases hstep
  · simp [hr] at hr'
  · rw [hostEvent_sendWord_of_takes (takesWord_of_room hr hroom)]
    exact step_stalled (by simpa using hr) (by simpa using hidle.resolve_left hne)
  · have hroom' : rest.length ≤ s.commandRoom := by
      rw [hc, List.length_cons] at hroom
      exact (Nat.le_succ _).trans hroom
    obtain ⟨hcmds, hrest⟩ := receiveWord_commands_cons (w := w) (last := last) hc
    have hstep' := step_eq_execPacket (s := receiveWord s w last) (by simpa using hr) hcmds (by simpa using hs)
    rw [hostEvent_sendWord_of_takes (takesWord_of_room (by exact hr) (by exact hroom')), hstep', hrest,
      execPacket_of_slots_eq (s := { s with commands := rest }) (by simp) (by simp) he]
    cases last <;> rfl

/-- Settles O9: the response and the effect of a packet do not depend on what stands in the channels. -/
theorem hostTimingChangesNoResult : Obligations.HostTimingChangesNoResult := fun _ _ hr hstep =>
  ⟨step_takeResponse hr hstep, step_sendWord hr hstep⟩

/-! ## Runs -/

theorem runEvents_cons {e : Event} {es : List Event} (h : react e s = .next t) :
    runEvents (e :: es) s = runEvents es t := by simp only [runEvents, h]

theorem runEvents_append {es es' : List Event} (h : runEvents es s = .next t) :
    runEvents (es ++ es') s = runEvents es' t := by
  induction es generalizing s with
  | nil => rw [List.nil_append, Host.Outcome.next.inj h]
  | cons e es ih =>
    cases he : react e s with
    | next u =>
      rw [runEvents_cons he] at h
      rw [List.cons_append, runEvents_cons he, ih h]
    | fault r => cases r
    | refused r => simp [runEvents, he] at h

theorem step_keeps_resetIn (hr : s.resetIn = false) (h : step s = .next t) : t.resetIn = false := by
  obtain ⟨hr', -⟩ | ⟨-, rfl, -⟩ | ⟨-, p, rest, l, r, -, -, -, rfl⟩ := step_cases h
  · simp [hr] at hr'
  · exact hr
  · exact hr

/-! ## A packet sent word by word (30_encoding.md R70) -/

theorem runEvents_sendWords (h : s.takesWord = true) (ws : List Word) :
    runEvents (ws.map fun w => .host (.sendWord w false)) s = .next { s with incoming := s.incoming ++ ws } := by
  induction ws generalizing s with
  | nil => simp [runEvents]
  | cons w ws ih =>
    have hreact : react (.host (.sendWord w false)) s = .next { s with incoming := s.incoming ++ [w] } :=
      congrArg _ (hostEvent_sendWord_of_takes h w false)
    rw [List.map_cons, runEvents_cons hreact, ih (s := { s with incoming := s.incoming ++ [w] }) h]
    simp

theorem packetOf_dropLast_getLastD (header : Word) (body : List Word) :
    packetOf (header :: body).dropLast ((header :: body).getLastD 0#64) = ⟨header, body⟩ := by
  cases body with
  | nil => rfl
  | cons b bs =>
    rw [List.getLastD_cons, List.getLastD_eq_getLast?, List.getLast?_eq_some_getLast (List.cons_ne_nil b bs)]
    exact congrArg (Packet.mk header) (List.dropLast_append_getLast (List.cons_ne_nil b bs))

/-- Settles O11: the words but the last collect in `incoming`, and the last completes the packet. -/
theorem sentPacketArrivesWhole : Obligations.SentPacketArrivesWhole := by
  intro s p hr hin hroom
  have htakes := takesWord_of_room hr hroom
  have hwords := runEvents_sendWords htakes (p.header :: p.body).dropLast
  rw [sendPacket, List.map_append, List.map_map, Function.comp_def, runEvents_append hwords]
  have hlast := hostEvent_sendWord_of_takes
    (s := { s with incoming := s.incoming ++ (p.header :: p.body).dropLast }) htakes
    ((p.header :: p.body).getLastD 0#64) true
  rw [List.map_singleton, runEvents_cons (congrArg _ hlast), runEvents, receiveWord, hin]
  simp only [List.nil_append, packetOf_dropLast_getLastD, if_true]

/-! ## Waits (70_reset_and_hazards.md R226) -/

theorem answerAll_singleton (p : Packet) (s : State) : answerAll [p] s = execPacket p s := by
  unfold answerAll
  cases execPacket p s <;> rfl

/-- A response taken is one response fewer in the end, the oldest of them. -/
theorem settled_takeResponse (h : settled s = .next u) :
    ∃ q, settled (hostEvent .takeResponse s) = .next { u with responses := q } ∧
      s.offered.toList ++ q = u.responses := by
  obtain ⟨l, rs, -, hall⟩ := settled_transfer s
  obtain rfl := Host.Outcome.next.inj (h.symm.trans (hall s.responseRoom s.commandRoom s.incoming s.responses))
  refine ⟨_, hall s.responseRoom s.commandRoom s.incoming s.responses.tail, ?_⟩
  cases hq : s.responses <;> simp [State.offered, hq]

/-- However steps and taken responses interleave, the responses handed over and those still to come are the same, and so
is the state in the end. -/
theorem run_of_steps_and_takes {es : List Event} (hes : ∀ e ∈ es, e = .step ∨ e = .host .takeResponse)
    (hr : s.resetIn = false) (h : settled s = .next u) :
    ∃ t rest, runEvents es s = .next t ∧ handedOver es s ++ rest = u.responses ∧
      settled t = .next { u with responses := rest } := by
  induction es generalizing s u with
  | nil => exact ⟨s, u.responses, rfl, rfl, h⟩
  | cons e es ih =>
    obtain ⟨he, hes'⟩ := List.forall_mem_cons.mp hes
    obtain rfl | rfl := he
    · obtain ⟨s', hstep⟩ := step_next s
      obtain ⟨t, rest, hrun, hresp, ht⟩ := ih hes' (step_keeps_resetIn hr hstep) ((settled_step hr hstep).trans h)
      refine ⟨t, rest, (runEvents_cons (e := .step) hstep).trans hrun, ?_, ht⟩
      simpa [handedOver, react, hstep] using hresp
    · obtain ⟨q, hq, hoffered⟩ := settled_takeResponse h
      obtain ⟨t, rest, hrun, hresp, ht⟩ := ih (s := hostEvent .takeResponse s) hes' hr hq
      refine ⟨t, rest, hrun, ?_, ht⟩
      simp only [handedOver, react, if_true, List.append_assoc, hresp, hoffered]

/-- Settles O10: what the waiting packets answer depends on the slots alone, so the state once all are answered is the
same along every run of steps and taken responses. -/
theorem waitingChangesNoResult : Obligations.WaitingChangesNoResult := by
  intro s hr
  obtain ⟨l, rs, hlen, hall⟩ := settled_transfer s
  have hsettled := hall s.responseRoom s.commandRoom s.incoming s.responses
  refine ⟨fun hroom => step_stalled hr (Nat.not_le.mp hroom), fun p rest k hc hk => ?_,
    fun hroom => hostEvent_sendWord_of_not_takes (takesWord_eq_false (.inr hroom)),
    _, rs, hsettled, rfl, hlen, fun es hes => run_of_steps_and_takes hes hr hsettled, fun hroom w => ?_,
    fun r c => hall r c s.incoming s.responses⟩
  · rw [taking_eq]
    exact step_eq_execPacket (s := { s with responses := s.responses.drop k }) hr hc (by simpa using hk)
  · have htakes := takesWord_of_room hr hroom
    rw [hostEvent_sendWord_of_takes htakes, hostEvent_sendWord_of_takes htakes]
    refine ⟨hall s.responseRoom s.commandRoom (s.incoming ++ [w]) s.responses, ?_⟩
    exact (answerAll_append s.commands [packetOf s.incoming w]
      (hall s.responseRoom s.commandRoom [] s.responses)).trans (answerAll_singleton _ _)

/-! ## Safety (70_reset_and_hazards.md R227) -/

theorem hostEvent_keeps_inv (h : s.Inv) (e : HostEvent) : (hostEvent e s).Inv := by
  cases e with
  | sendWord w last =>
    cases ht : s.takesWord with
    | false => rwa [hostEvent_sendWord_of_not_takes ht]
    | true =>
      rw [hostEvent_sendWord_of_takes ht]
      exact h.of_slots_eq (receiveWord_slots s w last) (receiveWord_maxlgw s w last)
  | takeResponse => exact h.of_slots_eq rfl rfl
  | assertReset => exact h.cleared.of_slots_eq rfl rfl
  | releaseReset => exact h.of_slots_eq rfl rfl

theorem react_keeps_inv (h : s.Inv) (e : Event) : ∃ t, react e s = .next t ∧ t.Inv := by
  cases e with
  | host e => exact ⟨_, rfl, hostEvent_keeps_inv h e⟩
  | step =>
    obtain ⟨t, hstep⟩ := step_next s
    exact ⟨t, hstep, stepKeepsInvariant s t h hstep⟩

/-- Settles O48, by induction over the events: each keeps the invariant and none stops the run. -/
theorem everyRunIsSafe : Obligations.EveryRunIsSafe := by
  intro es
  induction es with
  | nil => exact fun s h => ⟨s, rfl, h⟩
  | cons e es ih =>
    intro s h
    obtain ⟨u, hreact, hu⟩ := react_keeps_inv h e
    obtain ⟨t, hrun, ht⟩ := ih u hu
    exact ⟨t, (runEvents_cons hreact).trans hrun, ht⟩

/-! ## Reset (70_reset_and_hazards.md R220, R221) -/

/-- Settles O2. -/
theorem resetMeetsInvariant : Obligations.ResetMeetsInvariant := inv_reset

/-- Settles O3: no word is taken while reset is asserted, and the step clears the block. -/
theorem assertedResetHoldsTheBlock : Obligations.AssertedResetHoldsTheBlock := fun s hr =>
  ⟨hostEvent_sendWord_of_not_takes (takesWord_eq_false (.inl hr)), s.cleared, step_of_resetIn hr, hr, rfl, rfl, rfl,
    State.resetWith_slot s.nslots s.maxlgw s.responseRoom s.commandRoom, rfl⟩

/-! ## One step (30_encoding.md R79; 60_exceptions.md section 7) -/

/-- Settles O5: with room for its response the oldest packet is executed, without it the block holds its state. -/
theorem stepRunsTheDecodedCommand : Obligations.StepRunsTheDecodedCommand := by
  intro s p rest i hr hc hd
  refine ⟨decode_wellFormed hd, fun hroom => ?_, fun hroom => step_stalled hr (Nat.not_le.mp hroom)⟩
  rw [step_eq_execPacket hr hc hroom, execPacket, hd]

/-- Settles O6. -/
theorem idleBlockHoldsItsState : Obligations.IdleBlockHoldsItsState := fun _ => step_idle

end Sys2Proof.Machine
end

section
/-! PROOFS, family other, the encoder (30_encoding.md R71 to R76): the fields of an encoded header, and that decoding
undoes encoding. -/

namespace Sys2Proof.Machine

open Sys2Proof.Claims Sys2Proof.Laws

/-! ## The encoded header (30_encoding.md R71) -/

theorem toNat_setWidth_shiftLeft {n : ℕ} (x : BitVec n) {k : ℕ} (hx : x.toNat * 2 ^ k < 2 ^ 64) :
    (x.setWidth 64 <<< k).toNat = x.toNat * 2 ^ k := by
  have hle : x.toNat ≤ x.toNat * 2 ^ k := Nat.le_mul_of_pos_right _ (Nat.two_pow_pos k)
  rw [BitVec.toNat_shiftLeft, BitVec.toNat_setWidth, Nat.mod_eq_of_lt (hle.trans_lt hx), Nat.shiftLeft_eq,
    Nat.mod_eq_of_lt hx]

/-- A field placed above a smaller number is added to it. -/
theorem toNat_field_or {n : ℕ} (x : BitVec n) {k : ℕ} {low : Word} (hx : x.toNat * 2 ^ k < 2 ^ 64)
    (hlow : low.toNat < 2 ^ k) : ((x.setWidth 64 <<< k) ||| low).toNat = x.toNat * 2 ^ k + low.toNat := by
  rw [BitVec.toNat_or, toNat_setWidth_shiftLeft x hx, ← Nat.shiftLeft_eq, Nat.shiftLeft_add_eq_or_of_lt hlow]

/-- The four fields of an encoded header as a sum. -/
theorem toNat_encodeHeader (o : Op) (fd fa fb : SlotNum) : (encodeHeader o fd fa fb).toNat =
    o.code.toNat * 2 ^ 56 + (fd.toNat * 2 ^ 52 + (fa.toNat * 2 ^ 48 + fb.toNat * 2 ^ 44)) := by
  have hcode := o.code.isLt
  have hfd := fd.isLt
  have hfa := fa.isLt
  have hfb := fb.isLt
  have hb := toNat_setWidth_shiftLeft fb (k := 44) (by omega)
  have hab := toNat_field_or fa (k := 48) (by omega) (hb.trans_lt (by omega))
  have hdab := toNat_field_or fd (k := 52) (by omega) (hab.trans_lt (by omega))
  rw [encodeHeader, BitVec.or_assoc, BitVec.or_assoc, toNat_field_or o.code (by omega) (hdab.trans_lt (by omega)),
    hdab, hab, hb]

/-- Settles O13: an unused slot field is encoded as zero. -/
theorem encodedHeaderHoldsTheFields : Obligations.EncodedHeaderHoldsTheFields := by
  intro i
  rw [opcodeNumber_eq]
  cases i <;> simp [encode, toNat_encodeHeader, Instr.op, Nat.add_assoc]

/-! ## Decoding what was encoded -/

section

variable (o : Op) (fd fa fb : SlotNum) (body : List Word)

@[simp] theorem opc_encodeHeader : (Packet.mk (encodeHeader o fd fa fb) body).opc = o.code := by
  have hcode := o.code.isLt
  rw [← BitVec.toNat_inj, toNat_opc, toNat_encodeHeader]
  omega

@[simp] theorem fd_encodeHeader : (Packet.mk (encodeHeader o fd fa fb) body).fd = fd := by
  have hfd := fd.isLt
  rw [← BitVec.toNat_inj, toNat_fd, toNat_encodeHeader]
  omega

@[simp] theorem fa_encodeHeader : (Packet.mk (encodeHeader o fd fa fb) body).fa = fa := by
  have hfa := fa.isLt
  rw [← BitVec.toNat_inj, toNat_fa, toNat_encodeHeader]
  omega

@[simp] theorem fb_encodeHeader : (Packet.mk (encodeHeader o fd fa fb) body).fb = fb := by
  have hfb := fb.isLt
  rw [← BitVec.toNat_inj, toNat_fb, toNat_encodeHeader]
  omega

@[simp] theorem rsv_encodeHeader : (Packet.mk (encodeHeader o fd fa fb) body).rsv = 0#44 := by
  rw [← BitVec.toNat_inj, toNat_rsv, toNat_encodeHeader, BitVec.toNat_ofNat]
  omega

end

theorem opc_encode (i : Instr) : (encode i).opc = i.op.code := by
  cases i <;> exact opc_encodeHeader _ _ _ _ _

/-- The encoder leaves the slot fields that its command does not use zero, and RSV (30_encoding.md R76, R77). -/
theorem headerClean_encode (i : Instr) : headerClean i.op (encode i) = true := by
  cases i <;> simp [headerClean, encode, Instr.op, Op.usesFD, Op.usesFAFB]

theorem lengthOk_encode (i : Instr) : EncodedLength.Statement i := by
  cases i with
  | hash msg => exact EncodedLength.hash msg
  | fnew fd n p => exact EncodedLength.fnew fd n p
  | fadd fd msg => exact EncodedLength.fadd fd msg
  | ftest fd msg => exact EncodedLength.ftest fd msg
  | fcount fd => exact EncodedLength.fcount fd
  | funion fd fa fb => exact EncodedLength.funion fd fa fb
  | fload fd W k c ws => exact EncodedLength.fload fd W k c ws
  | fstore fd => exact EncodedLength.fstore fd

theorem messageOf_encodeMessage {msg : List Byte} (h : messageFits msg = true) :
    messageOf (encodeMessage msg) = msg := by
  have hlt : msg.length < 2 ^ 64 := of_decide_eq_true h
  rw [encodeMessage, messageOf, BitVec.toNat_ofNat, Nat.mod_eq_of_lt hlt]
  exact take_flatMap_packWords msg _ (by omega)

/-- Every operand stands where `assemble` reads it. -/
theorem assemble_encode {i : Instr} (h : i.wellFormed = true) : assemble i.op (encode i) = i := by
  cases i with
  | hash msg | fadd fd msg | ftest fd msg =>
    simp [Instr.op, assemble, encode, messageOf_encodeMessage (show messageFits msg = true from h)]
  | fnew | fload => simp [Instr.op, assemble, encode, Packet.operand]
  | fcount | funion | fstore => simp [Instr.op, assemble, encode]

/-- Settles O12: an encoded packet passes the three checks of decoding, and assembles to the instruction. -/
theorem decodeInvertsEncode : Obligations.DecodeInvertsEncode := fun i hi =>
  decode_eq_ok_iff.mpr ⟨i.op, opc_encode i, headerClean_encode i, lengthOk_encode i hi, (assemble_encode hi).symm⟩

/-- Settles O4. -/
theorem samplePacketsDecode : Obligations.SamplePacketsDecode := by
  refine ⟨?_, ?_, ?_, ?_, ?_, ?_, ?_, ?_⟩ <;> decide

end Sys2Proof.Machine
end

section
/-! PROOFS, family other, the hash (40_hashcore.md section 8): the blocks and the tail read the message by index, so
the hash is the pseudocode's. -/

namespace Sys2Proof.Machine

open Sys2Proof.Claims

/-! ## Words of the message by index (00_scope.md R13) -/

theorem byte_le64At (msg : List Byte) (i t : ℕ) (ht : t < 8) :
    (le64At msg i).extractLsb' (8 * t) 8 = msg.getD (i + t) 0#8 := by
  have hbyte (j : ℕ) : byteAt msg j < 2 ^ 8 := (msg.getD j 0#8).isLt
  have h0 := hbyte (i + 0)
  have h1 := hbyte (i + 1)
  have h2 := hbyte (i + 2)
  have h3 := hbyte (i + 3)
  have h4 := hbyte (i + 4)
  have h5 := hbyte (i + 5)
  have h6 := hbyte (i + 6)
  have h7 := hbyte (i + 7)
  rw [← BitVec.toNat_inj, BitVec.extractLsb'_toNat, Nat.shiftRight_eq_div_pow]
  change _ = byteAt msg (i + t)
  simp only [le64At, Finset.sum_range_succ, Finset.sum_range_zero, BitVec.toNat_ofNat]
  interval_cases t <;> omega

/-- Bytes that agree with the message from index `i` on, zero beyond their end, make the message's word at `i`. -/
theorem le64_eq_le64At {bs msg : List Byte} {i : ℕ} (h : ∀ t, t < 8 → bs.getD t 0#8 = msg.getD (i + t) 0#8) :
    le64 bs = le64At msg i :=
  word_eq_of_bytes fun t ht => by rw [byte_le64 bs t ht, h t ht, byte_le64At msg i t ht]

/-! ## One turn of the block loop (40_hashcore.md R104 to R108) -/

theorem rotl_eq_rotateLeft (a : Word) {r : ℕ} (hr : r < 64) : rotl a r = a.rotateLeft r := by
  rw [rotl, BitVec.rotateLeft_def, Nat.mod_eq_of_lt hr]

/-- The running hashes as the pair of the pseudocode. -/
def HashRegs.pair (h : HashRegs) : Word × Word := (h.h1, h.h2)

theorem pair_blockUpdate (msg : List Byte) (h : HashRegs) (i : ℕ) :
    (blockUpdate h ((msg.drop (16 * i)).take 16)).pair = blockTurn msg h.pair i := by
  have hk1 : le64 (((msg.drop (16 * i)).take 16).take 8) = le64At msg (16 * i) :=
    le64_eq_le64At fun t ht => by simp [List.getD, ht, ht.trans (by decide : 8 < 16)]
  have hk2 : le64 ((((msg.drop (16 * i)).take 16).drop 8).take 8) = le64At msg (16 * i + 8) :=
    le64_eq_le64At fun t ht => by simp [List.getD, ht, show 8 + t < 16 by omega, Nat.add_assoc]
  simp only [blockUpdate, HashRegs.pair, blockTurn, hk1, hk2, updateH1, updateH2, mixK1, mixK2,
    rotl_eq_rotateLeft _ (show 27 < 64 by decide), rotl_eq_rotateLeft _ (show 31 < 64 by decide),
    rotl_eq_rotateLeft _ (show 33 < 64 by decide)]
  rfl

/-! ## All blocks (40_hashcore.md R103) -/

/-- The recursion of `absorb`. It is unfolded before the two sides are compared: comparing them folded, the kernel
evaluates the hash states. -/
theorem absorb_cons (n : ℕ) (msg : List Byte) (h : HashRegs) :
    absorb (n + 1) msg h = absorb n (msg.drop 16) (blockUpdate h (msg.take 16)) := by
  delta absorb
  rfl

/-- The last block of a message is absorbed last. -/
theorem absorb_succ (n : ℕ) (msg : List Byte) (h : HashRegs) :
    absorb (n + 1) msg h = blockUpdate (absorb n msg h) ((msg.drop (16 * n)).take 16) := by
  induction n generalizing msg h with
  | zero => rfl
  | succ n ih =>
    rw [absorb_cons, ih, List.drop_drop, ← absorb_cons, Nat.mul_succ, Nat.add_comm 16]

theorem pair_absorb (n : ℕ) (msg : List Byte) (h : HashRegs) :
    (absorb n msg h).pair = (List.range n).foldl (blockTurn msg) h.pair := by
  induction n with
  | zero => rfl
  | succ n ih =>
    rw [absorb_succ, pair_blockUpdate, ih, List.range_succ, List.foldl_append, List.foldl_cons, List.foldl_nil]

/-! ## The tail (40_hashcore.md R109, R110) -/

/-- Beyond the whole blocks the message has at most 15 bytes, and reads zero after them. -/
theorem tailUpdate_eq (msg : List Byte) (h : HashRegs) :
    tailUpdate h (msg.drop (16 * (msg.length / 16))) =
      ⟨h.h1 ^^^ mixK1 (le64At msg (16 * (msg.length / 16))),
        h.h2 ^^^ mixK2 (le64At msg (16 * (msg.length / 16) + 8))⟩ := by
  have hk1 : le64 ((msg.drop (16 * (msg.length / 16))).take 8) = le64At msg (16 * (msg.length / 16)) :=
    le64_eq_le64At fun t ht => by simp [List.getD, ht]
  have hk2 : le64 ((msg.drop (16 * (msg.length / 16))).drop 8) = le64At msg (16 * (msg.length / 16) + 8) :=
    le64_eq_le64At fun t _ => by simp [List.getD, Nat.add_assoc]
  rw [tailUpdate, hk1, hk2]

/-- Settles O18: block by block, in the tail and in the finalization, model and pseudocode compute the same. -/
theorem hashIsThePseudocode : Obligations.HashIsThePseudocode := by
  intro msg
  have hblocks := pair_absorb (msg.length / 16) msg ⟨0#64, 0#64⟩
  have h1 := congrArg Prod.fst hblocks
  have h2 := congrArg Prod.snd hblocks
  simp only [HashRegs.pair] at h1 h2
  simp only [hashMsg, hashByIndex, tailUpdate_eq, finalize, crossAdd, h1, h2, mixK1, mixK2,
    rotl_eq_rotateLeft _ (show 31 < 64 by decide), rotl_eq_rotateLeft _ (show 33 < 64 by decide)]
  rfl

/-- Settles O19. -/
theorem hashRespondsTheHash : Obligations.HashRespondsTheHash := fun msg s => respond_eq_status (.hash msg) false _ s

end Sys2Proof.Machine
end

section
/-! PROOFS, family other, the exact numeric functions (00_scope.md R9; 41_filter_construct.md R131; 43_filter_union.md
R166, R167): `lnFloor` is the floor of its real, between two ends that are close. -/

namespace Sys2Proof.Machine

/-! ## The floor of a logarithm and its two ends -/

section

variable {a b x y : ℕ}

theorem natCast_lnFloor (hb : 0 < b) (hy : 0 < y) (hyx : y ≤ x) : (lnFloor a b x y : ℤ) = ⌊lnValue a b x y⌋ := by
  rw [lnFloor_eq hb hy hyx, Int.natCast_floor_eq_floor (lnValue_nonneg hy hyx)]

/-- The floor lies between the two ends at every precision. -/
theorem lnFloor_between (hb : 0 < b) (hy : 0 < y) (hyx : y ≤ x) (d : ℕ) :
    (lnFloorLo a b x y d : ℤ) ≤ ⌊lnValue a b x y⌋ ∧ ⌊lnValue a b x y⌋ ≤ lnFloorHi a b x y d := by
  rw [← natCast_lnFloor hb hy hyx, lnFloor_eq hb hy hyx]
  exact ⟨by exact_mod_cast lnFloorLo_le hb hy hyx d, by exact_mod_cast le_lnFloorHi hb hy hyx d⟩

/-- The ends are narrow for factors and arguments of 68 and 64 bits, which FNEW's and FUNION's operands keep to. -/
theorem lnFloorHi_le_of_lt (hb : 0 < b) (hy : 0 < y) (hyx : y ≤ x) (ha : a < 2 ^ 68) (hx : x < 2 ^ 64) (d : ℕ) :
    lnFloorHi a b x y d ≤ lnFloorLo a b x y d + 1 := by
  refine lnFloorHi_le hb hy hyx ?_
  have hlog : (x / y).log2 < 64 :=
    (Nat.log2_lt (Nat.div_pos hyx hy).ne').mpr ((Nat.div_le_self x y).trans_lt hx)
  calc a * (6 * ((x / y).log2 + 1)) ≤ 2 ^ 68 * (6 * 64) := Nat.mul_le_mul ha.le (Nat.mul_le_mul_left 6 hlog)
    _ ≤ 2 ^ 256 := by norm_num

end

/-! ## SIZE_WORDS (41_filter_construct.md R131) -/

theorem lnValue_sizeWords (n p : ℕ) : lnValue (13 * n) 400 p 1 = (325 / 10000 : ℝ) * Real.log p * n := by
  rw [lnValue]
  push_cast
  rw [div_one]
  ring

/-- The spec's example: 428 elements at a rate of 1 in 100 (41_filter_construct.md). -/
theorem sizeWords_example : sizeWords 428 100 = 64 ∧ (newFilter 16 428 100).W = 64 := by decide +kernel

/-- Settles O20: SIZE_WORDS is `lnFloor` of the product R131 writes. -/
theorem sizeWordsIsExact : Obligations.SizeWordsIsExact := by
  refine ⟨fun n p hp => ?_, sizeWords_example⟩
  have hp1 : 1 ≤ p := one_le_two.trans hp
  simp only [← lnValue_sizeWords]
  refine ⟨natCast_lnFloor (by norm_num) one_pos hp1, fun d => ?_⟩
  obtain ⟨hlo, hhi⟩ := lnFloor_between (a := 13 * n) (b := 400) (by norm_num) one_pos hp1 d
  exact ⟨hlo, hhi, fun hn hp' => lnFloorHi_le_of_lt (by norm_num) one_pos hp1 (by omega) hp' d⟩

/-! ## EST (43_filter_union.md R166, R167) -/

section

variable {m k x : ℕ}

theorem lnValue_est (hx : x < m) :
    lnValue m k m (m - x) = ((m : ℝ) / k) * Real.log ((m : ℝ) / ((m : ℝ) - x)) := by
  rw [lnValue, Nat.cast_sub hx.le]

theorem est_zero (hk : 0 < k) (hm : 0 < m) : est m k 0 = 0 := by
  have hm' : (m : ℝ) ≠ 0 := by exact_mod_cast hm.ne'
  simp [est_eq hk hm, hm']

/-- A smaller number of clear bits, or a larger one of set bits, never makes the logarithm smaller. -/
theorem lnValue_est_mono {y : ℕ} (hxy : x ≤ y) (hy : y < m) : lnValue m k m (m - x) ≤ lnValue m k m (m - y) := by
  have hm : (0 : ℝ) < m := by exact_mod_cast (Nat.zero_le y).trans_lt hy
  have hpos : (0 : ℝ) < (m - y : ℕ) := by exact_mod_cast Nat.sub_pos_of_lt hy
  have hle : ((m - y : ℕ) : ℝ) ≤ (m - x : ℕ) := by exact_mod_cast Nat.sub_le_sub_left hxy m
  unfold lnValue
  gcongr
  exact div_pos hm (hpos.trans_le hle)

/-- More probes for the same bits never make the estimate larger. -/
theorem lnValue_est_anti {k' : ℕ} (hk : 0 < k) (hkk : k ≤ k') (hx : x < m) :
    lnValue m k' m (m - x) ≤ lnValue m k m (m - x) := by
  have hlog : 0 ≤ Real.log ((m : ℝ) / (m - x : ℕ)) := by
    have h := lnValue_nonneg (a := 1) (b := 1) (Nat.sub_pos_of_lt hx) (Nat.sub_le m x)
    simpa [lnValue] using h
  have hk' : (0 : ℝ) < k := by exact_mod_cast hk
  unfold lnValue
  gcongr

end

/-- Settles O33: EST is `lnFloor` of the real R166 writes, whose logarithm grows with X. -/
theorem estIsExact : Obligations.EstIsExact := by
  intro m k x hk hx
  have hpos (z : ℕ) (hz : z < m) : 0 < m - z := Nat.sub_pos_of_lt hz
  have hest (j z : ℕ) (hj : 0 < j) (hz : z < m) : est m j z = ⌊lnValue m j m (m - z)⌋₊ :=
    lnFloor_eq hj (hpos z hz) (Nat.sub_le m z)
  simp only [← lnValue_est hx]
  refine ⟨⟨natCast_lnFloor hk (hpos x hx) (Nat.sub_le m x), fun d => ?_⟩, est_lt hk hx,
    est_zero hk ((Nat.zero_le x).trans_lt hx), fun y hxy hy => ?_, fun k' hkk => ?_⟩
  · obtain ⟨hlo, hhi⟩ := lnFloor_between (a := m) hk (hpos x hx) (Nat.sub_le m x) d
    exact ⟨hlo, hhi, fun hm => lnFloorHi_le_of_lt hk (hpos x hx) (Nat.sub_le m x) (by omega) (by omega) d⟩
  · rw [hest k x hk hx, hest k y hk hy]
    exact Nat.floor_mono (lnValue_est_mono hxy hy)
  · rw [hest k x hk hx, hest k' x (hk.trans_le hkk) hx]
    exact Nat.floor_mono (lnValue_est_anti hk hkk hx)

end Sys2Proof.Machine
end

section
/-! PROOFS, family other, filters over sequences of commands (41_filter_construct.md R130 to R134;
42_filter_insert_test.md R148 to R152): a new filter is empty, what was inserted stays a member, and the count tallies
the insertions that were new. -/

namespace Sys2Proof.Machine

open Sys2Proof.Claims

variable {s t : State} {fd : SlotNum} {f g : Filter} {n p : Word} {x y : List Byte}

/-! ## A new filter (41_filter_construct.md R130, R132, R134) -/

/-- FNEW's outcome on legal operands, in the statements' words. -/
theorem exec_fnew_eq (hd : SlotPresent s fd) (hp : 2 ≤ p.toNat) (hn : sizeWords n.toNat p.toNat ≤ 2 ^ s.maxlgw) :
    exec (.fnew fd n p) s = .next ((s.setSlot fd (newFilter s.maxlgw n.toNat p.toNat)).emit
      ⟨status 0x10 false 0, []⟩) :=
  (execFnew_ok ((slotExists_iff s fd).mpr hd) (rateLegal_iff.mpr hp) hn).trans
    (respond_eq_status (.fnew fd n p) _ _ _)

theorem slot_setSlot_emit (hd : SlotPresent s fd) (g : Filter) (r : Response) :
    ((s.setSlot fd g).emit r).slot fd = some g := s.slot_setSlot_same fd g ((slotExists_iff s fd).mpr hd)

/-- Settles O22: FNEW puts `newFilter` into its slot, and `wordCount` is the least power of two that is enough. -/
theorem fnewMakesAnEmptyFilter : Obligations.FnewMakesAnEmptyFilter := by
  intro fd n p s hd hp hn
  obtain ⟨j, -, hW, hle, hleast⟩ := wordCount_spec hn
  exact ⟨_, _, exec_fnew_eq hd hp hn, onlySlotChanged_setSlot_emit fd s _ _, slot_setSlot_emit hd _ _,
    ⟨j, hW, hle, fun i hi => not_lt.mp fun hij => absurd hi (hleast i hij).not_ge⟩,
    toNat_newFilter_probes hp p.isLt, rfl, fun _ => rfl⟩

/-! ## Membership (42_filter_insert_test.md R145, R148) -/

/-- Right after an insertion the element is a member. -/
theorem allSet_addTo_self (f : Filter) (x : List Byte) : allSet (addTo f x).1 x = true := by
  have hpos : positions (addTo f x).1 x = positions f x := positions_congr rfl rfl x
  simp only [allSet, hpos, List.all_eq_true, addTo_bit]
  exact fun n hn => by simp [hn]

/-- A member stays one as the filter grows. -/
theorem Filter.GrowsTo.allSet (h : f.GrowsTo g) (hx : allSet f x = true) : allSet g x = true := by
  simp only [Claims.allSet, List.all_eq_true, positions_congr h.W h.probes x] at hx ⊢
  exact fun n hn => h.bits n (hx n hn)

/-- Inserting a member changes nothing. -/
theorem addTo_of_allSet (hx : allSet f x = true) : (addTo f x).1 = f := by
  have hloop : insertLoop (positions f x) f.words true = (f.words, true) := insertLoop_of_all _ _ _ hx
  simp [addTo, hloop, countAfterAdd]

/-- An array with nothing in it has no bit set. -/
@[simp] theorem Memory.bit_nil (n : ℕ) : Memory.bit [] n = false := by simp [Memory.bit, Memory.read]

/-- An empty array that is probed at all has no members. -/
theorem allSet_of_words_nil (hk : 0 < f.probes.toNat) (hw : f.words = []) (x : List Byte) : allSet f x = false := by
  have hne : positions f x ≠ [] := by
    rw [← List.length_pos_iff, positions, length_probePositions]
    exact hk
  obtain ⟨n, ns, hns⟩ := List.exists_cons_of_ne_nil hne
  simp [allSet, hns, hw]

/-- The state after an FADD: the element is a member of the slot's filter. -/
theorem exec_fadd_member (hf : s.slot fd = some f) (h : exec (.fadd fd x) s = .next t) :
    t.slot fd = some (addTo f x).1 := by
  rw [Host.Outcome.next.inj (h.symm.trans (exec_fadd_eq hf x))]
  exact s.slot_setSlot_same fd _ (slotExists_of_slot s fd f hf)

/-- Settles O29: after the FADD the element is a member, and every command that does not replace the filter lets it
grow. -/
theorem noFalseNegatives : Obligations.NoFalseNegatives := by
  intro fd x s s1 f cmds hf hadd hcmds
  obtain ⟨t, g, hall, hg, hgrows⟩ := execAll_growsTo (exec_fadd_member hf hadd) hcmds
  have htest := exec_ftest_eq hg x
  rw [hgrows.allSet (allSet_addTo_self f x)] at htest
  exact ⟨t, hall, htest⟩

/-- Putting the slot's own filter back leaves the slots as they were. -/
theorem setSlot_slots_of_slot (hf : s.slot fd = some f) : (s.setSlot fd f).slots = s.slots := by
  have hlt : fd.toNat < s.slots.length := (slotExists_iff s fd).mp (slotExists_of_slot s fd f hf)
  have hget : s.slots[fd.toNat] = some f := by simpa [State.slot, hlt] using hf
  rw [State.setSlot_slots, ← hget, List.set_getElem_self]

/-- Settles O30: the second FADD inserts a member. -/
theorem secondInsertionAnswersOne : Obligations.SecondInsertionAnswersOne := by
  intro fd x s s1 f hf hadd
  have hg := exec_fadd_member hf hadd
  have hmember := allSet_addTo_self f x
  have hsecond := exec_fadd_eq hg x
  rw [addTo_of_allSet hmember, hmember] at hsecond
  exact ⟨_, hsecond, setSlot_slots_of_slot hg, rfl⟩

/-- Settles O31: a new filter has count 0, no bit set and at least one probe. -/
theorem freshFilterIsEmpty : Obligations.FreshFilterIsEmpty := by
  intro fd n p x s hd hp hn
  have hprobes : 0 < (newFilter s.maxlgw n.toNat p.toNat).probes.toNat := by
    rw [toNat_newFilter_probes hp p.isLt]
    exact sizeProbes_pos _
  have htest := exec_ftest_eq
    (slot_setSlot_emit hd (newFilter s.maxlgw n.toNat p.toNat) ⟨status 0x10 false 0, []⟩) x
  rw [allSet_of_words_nil hprobes rfl] at htest
  exact ⟨_, exec_fnew_eq hd hp hn, exec_fcount_eq (slot_setSlot_emit hd _ _), htest⟩

/-! ## The tally of new insertions (42_filter_insert_test.md R146, R151) -/

/-- The elements of a sequence that are not members of a filter. -/
def nonmembers (f : Filter) (xs : List (List Byte)) : Finset (List Byte) :=
  xs.toFinset.filter fun y => allSet f y = false

/-- Inserting a nonmember takes it, and perhaps others, away from the nonmembers. -/
theorem card_nonmembers_addTo_lt (hx : allSet f x = false) (xs : List (List Byte)) :
    (nonmembers (addTo f x).1 xs).card < (nonmembers f (x :: xs)).card := by
  have hsub : nonmembers (addTo f x).1 xs ⊆ nonmembers f (x :: xs) := fun y hy => by
    simp only [nonmembers, Finset.mem_filter, List.mem_toFinset] at hy ⊢
    obtain ⟨hmem, hnot⟩ := hy
    refine ⟨List.mem_cons_of_mem x hmem, Bool.eq_false_iff.mpr fun hy => ?_⟩
    simp [(f.growsTo_addTo x).allSet hy] at hnot
  have hmem : x ∈ nonmembers f (x :: xs) := by simp [nonmembers, hx]
  have hnot : x ∉ nonmembers (addTo f x).1 xs := by simp [nonmembers, allSet_addTo_self]
  exact Finset.card_lt_card ((Finset.ssubset_iff_of_subset hsub).mpr ⟨x, hmem, hnot⟩)

theorem card_nonmembers_le_cons (f : Filter) (x : List Byte) (xs : List (List Byte)) :
    (nonmembers f xs).card ≤ (nonmembers f (x :: xs)).card := by
  refine Finset.card_le_card (Finset.filter_subset_filter _ ?_)
  rw [List.toFinset_cons]
  exact Finset.subset_insert x _

theorem card_nonmembers_le (f : Filter) (xs : List (List Byte)) : (nonmembers f xs).card ≤ xs.dedup.length :=
  (Finset.card_filter_le _ _).trans (List.card_toFinset xs).le

/-- An insertion of a nonmember counts, below IMAX. -/
theorem toNat_addTo_count (hx : allSet f x = false) (hc : f.count.toNat + 1 < 2 ^ 63) :
    (addTo f x).1.count.toNat = f.count.toNat + 1 := by
  obtain ⟨hcount, -⟩ := addTo_count_sat f x
  have hIMAX : IMAX.toNat = 2 ^ 63 - 1 := by decide
  have hne : f.count ≠ IMAX := fun h => by
    rw [h] at hc
    omega
  rw [hcount, hx, if_neg (by simp [hne]), BitVec.toNat_add, BitVec.toNat_ofNat]
  omega

/-- An insertion raises the count by one exactly when the element is new, and then there is one nonmember fewer. -/
theorem addTo_tally (hc : f.count.toNat + 1 < 2 ^ 63) (x : List Byte) (xs : List (List Byte)) :
    (addTo f x).1.count.toNat = f.count.toNat + (!allSet f x).toNat ∧
      (nonmembers (addTo f x).1 xs).card + (!allSet f x).toNat ≤ (nonmembers f (x :: xs)).card := by
  cases hx : allSet f x with
  | true =>
    rw [addTo_of_allSet hx]
    exact ⟨rfl, card_nonmembers_le_cons f x xs⟩
  | false => exact ⟨toNat_addTo_count hx hc, card_nonmembers_addTo_lt hx xs⟩

/-- The response tells of a new insertion. -/
def answersZero (r : Response) : Bool := r.results == [0#64]

theorem countP_answersZero_cons (w : Word) (b : Bool) (rs : List Response) :
    (⟨w, [zeroOrOne b]⟩ :: rs).countP answersZero = rs.countP answersZero + (!b).toNat := by
  cases b <;> simp [answersZero, zeroOrOne]

/-- FADDs of `xs` to a VALID slot whose count stays below 2^63: each answers, the count grows by the number of answers
0, and no more elements are new than were no members. -/
theorem execAll_fadds {xs : List (List Byte)} (hf : s.slot fd = some f) (hc : f.count.toNat + xs.length < 2 ^ 63) :
    ∃ t g rs, execAll (xs.map fun x => .fadd fd x) s = .next t ∧ t.slot fd = some g ∧
      t.responses = s.responses ++ rs ∧ rs.length = xs.length ∧
      g.count.toNat = f.count.toNat + rs.countP answersZero ∧ rs.countP answersZero ≤ (nonmembers f xs).card := by
  induction xs generalizing s f with
  | nil => exact ⟨s, f, [], rfl, hf, by simp, rfl, rfl, Nat.zero_le _⟩
  | cons x xs ih =>
    rw [List.length_cons] at hc
    have hexec := exec_fadd_eq hf x
    obtain ⟨hadd, hfewer⟩ := addTo_tally (f := f) (by omega) x xs
    have hnew := (!allSet f x).toNat_le
    obtain ⟨t, g, rs, hall, hg, hresp, hlen, hcount, hle⟩ := ih (exec_fadd_member hf hexec) (by omega)
    rw [State.emit_responses, State.setSlot_responses, List.append_assoc, List.singleton_append] at hresp
    refine ⟨t, g, _, by simpa only [List.map_cons, execAll, hexec] using hall, hg, hresp, by simp [hlen], ?_, ?_⟩
    · rw [countP_answersZero_cons]
      omega
    · rw [countP_answersZero_cons]
      omega

theorem errCode_ne_okCode (e : Err) : errCode e ≠ okCode := by cases e <;> decide

/-- An FNEW that answers OK has put `newFilter` into its slot. -/
theorem slot_of_exec_fnew_ok (h : exec (.fnew fd n p) s = .next t)
    (hresp : t.responses = s.responses ++ [⟨status 0x10 false 0, []⟩]) :
    t.slot fd = some (newFilter s.maxlgw n.toNat p.toNat) := by
  obtain ⟨e, -, he⟩ | ⟨hd, -, -, he⟩ := execFnew_cases s fd n p
  · obtain rfl := Host.Outcome.next.inj (h.symm.trans he)
    have hr := List.singleton_inj.mp (List.append_cancel_left hresp)
    have hstatus : statusWord Op.fnew.code false (errCode e) = statusWord Op.fnew.code false okCode :=
      (Response.mk.inj hr).1.trans (status_toNat Op.fnew.code false okCode)
    exact absurd (code_eq_of_statusWord_eq hstatus) (errCode_ne_okCode e)
  · obtain rfl := Host.Outcome.next.inj (h.symm.trans he)
    exact s.slot_setSlot_same fd _ hd

/-- Settles O32: a new filter's count is 0, so after the FADDs it is their tally. -/
theorem countTalliesNewInsertions : Obligations.CountTalliesNewInsertions := by
  intro fd n p s s0 xs f0 hnew hresp hf0 hlt
  have hcount0 : f0.count.toNat = 0 := by
    rw [Option.some.inj (hf0.symm.trans (slot_of_exec_fnew_ok hnew hresp))]
    rfl
  obtain ⟨t, g, rs, hall, hg, hresp, hlen, hcount, hle⟩ := execAll_fadds (xs := xs) hf0 (by omega)
  rw [hcount0, Nat.zero_add] at hcount
  exact ⟨t, g, rs, hall, hg, hresp, hlen, hcount, hcount.trans_le (hle.trans (card_nonmembers_le f0 xs))⟩

/-! ## Reading commands (42_filter_insert_test.md R148, R150; 44_filter_transfer.md R183) -/

/-- Settles O26. -/
theorem ftestReportsMembership : Obligations.FtestReportsMembership := fun _ x _ _ hf => exec_ftest_eq hf x

/-- Settles O27. -/
theorem fcountReportsTheCount : Obligations.FcountReportsTheCount := fun _ _ _ => exec_fcount_eq

/-- The words FSTORE answers, the probe count zero-extended. -/
theorem storedWords_eq (f : Filter) : storedWords f = [BitVec.ofNat 64 f.W, BitVec.ofNat 64 f.probes.toNat, f.count] ++
    (List.range f.W).map (fun J => Memory.read f.words J) := by
  rw [BitVec.ofNat_toNat]
  rfl

/-- Settles O39. -/
theorem fstoreReportsTheFilter : Obligations.FstoreReportsTheFilter := fun _ _ f hf => by
  rw [← storedWords_eq]
  exact exec_fstore_eq hf

end Sys2Proof.Machine
end

section
/-! PROOFS, family other, what any command reads and writes (10_state.md R21, R29): the frame of a command, how a slot
becomes VALID, and what its response depends on. -/

namespace Sys2Proof.Machine

open Sys2Proof.Claims

variable {s s' : State} {i : Instr}

/-- Settles O44: beyond its response a command can only have put a filter into the slot it may write. -/
theorem onlyTheWrittenSlotChanges : Obligations.OnlyTheWrittenSlotChanges := by
  intro i s t h
  obtain ⟨r, he | ⟨fd, f, hw, -, he⟩⟩ := exec_effect i s <;> obtain rfl := Host.Outcome.next.inj (h.symm.trans he)
  · exact ⟨rfl, rfl, rfl, rfl, rfl, rfl, rfl, fun _ _ => rfl⟩
  · have hframe := onlySlotChanged_setSlot_emit fd s f r
    exact ⟨hframe.maxlgw, hframe.responseRoom, hframe.commandRoom, hframe.nslots, hframe.resetIn, hframe.incoming,
      hframe.commands, fun j hj => hframe.slots j (hj fd hw)⟩

/-- Settles O45: a command empties no slot, and one that fills an EMPTY slot replaces its filter and answers OK. -/
theorem validIsSetOnlyByConstruction : Obligations.ValidIsSetOnlyByConstruction := by
  intro i s t n h
  obtain ⟨e, -, he⟩ | ⟨ws, -, he⟩ | ⟨fd, f, sat, ws, -, hx, -, hreplaced, he⟩ := exec_cases i s <;>
    obtain rfl := Host.Outcome.next.inj (h.symm.trans he)
  · exact ⟨id, fun hempty hvalid => absurd hempty hvalid⟩
  · exact ⟨id, fun hempty hvalid => absurd hempty hvalid⟩
  · by_cases hn : n = fd
    · subst hn
      have hslot : ((s.setSlot n f).emit ⟨statusWord i.op.code sat okCode, ws⟩).slot n = some f :=
        s.slot_setSlot_same n f hx
      exact ⟨fun _ => by simp [hslot], fun hempty _ => ⟨hreplaced hempty, _, rfl, statusWord_okCode_mod _ _⟩⟩
    · have hslot : ((s.setSlot fd f).emit ⟨statusWord i.op.code sat okCode, ws⟩).slot n = s.slot n :=
        s.slot_setSlot_ne fd n f hn
      rw [hslot]
      exact ⟨id, fun hempty hvalid => absurd hempty hvalid⟩

/-! ## What a response depends on (10_state.md R29, R33) -/

/-- Two outcomes, of a command from `s` and from `s'`, that append one and the same response. -/
def SameResponse (s s' : State) (a a' : Host.Outcome State Fault Refusal) : Prop :=
  ∃ t t' r, a = .next t ∧ a' = .next t' ∧ t.responses = s.responses ++ [r] ∧ t'.responses = s'.responses ++ [r]

theorem sameResponse_raise (o : Op) (e : Err) : SameResponse s s' (raise o e s) (raise o e s') :=
  ⟨_, _, _, rfl, rfl, rfl, rfl⟩

theorem sameResponse_respond (o : Op) (sat : Bool) (ws : List Word) :
    SameResponse s s' (respond o sat ws s) (respond o sat ws s') := ⟨_, _, _, rfl, rfl, rfl, rfl⟩

theorem sameResponse_respond_setSlot (o : Op) (sat : Bool) (ws : List Word) (fd : SlotNum) (f f' : Filter) :
    SameResponse s s' (respond o sat ws (s.setSlot fd f)) (respond o sat ws (s'.setSlot fd f')) :=
  ⟨_, _, _, rfl, rfl, rfl, rfl⟩

section

variable {fd fa fb : SlotNum} (hd : slotExists s fd = true) (hd' : slotExists s' fd = true)
include hd hd'

/-- FNEW's checks past the slot number look at its operands and `MAXLGW`. -/
theorem execFnew_sameResponse (n p : Word) (hm : s.maxlgw = s'.maxlgw) :
    SameResponse s s' (execFnew fd n p s) (execFnew fd n p s') := by
  cases hp : rateLegal p with
  | false => rw [execFnew_errParam hd hp, execFnew_errParam hd' hp]; exact sameResponse_raise _ _
  | true =>
    obtain hn | hn := Nat.lt_or_ge (2 ^ s.maxlgw) (sizeWords n.toNat p.toNat)
    · rw [execFnew_errCapacity hd hp hn, execFnew_errCapacity hd' hp (hm ▸ hn)]
      exact sameResponse_raise _ _
    · rw [execFnew_ok hd hp hn, execFnew_ok hd' hp (hm ▸ hn)]
      exact sameResponse_respond_setSlot _ _ _ _ _ _

/-- FLOAD's checks past the slot number look at its operands and `MAXLGW`. -/
theorem execFload_sameResponse (W k c : Word) (ws : List Word) (hm : s.maxlgw = s'.maxlgw) :
    SameResponse s s' (execFload fd W k c ws s) (execFload fd W k c ws s') := by
  cases hl : loadOperandsLegal W k c with
  | false => rw [execFload_errParam hd hl, execFload_errParam hd' hl]; exact sameResponse_raise _ _
  | true =>
    obtain hW | hW := Nat.lt_or_ge (2 ^ s.maxlgw) W.toNat
    · rw [execFload_errCapacity hd hl hW, execFload_errCapacity hd' hl (hm ▸ hW)]
      exact sameResponse_raise _ _
    · rw [execFload_ok hd hl hW, execFload_ok hd' hl (hm ▸ hW)]
      exact sameResponse_respond_setSlot _ _ _ _ _ _

/-- FUNION's checks past its EMPTY sources look at its slot numbers and the two filters. -/
theorem execFunion_sameResponse {a b : Filter} (ha : s.slot fa = some a) (ha' : s'.slot fa = some a)
    (hb : s.slot fb = some b) (hb' : s'.slot fb = some b) :
    SameResponse s s' (execFunion fd fa fb s) (execFunion fd fa fb s') := by
  cases hal : (fd == fa || fd == fb) with
  | true =>
    rw [execFunion_errAlias hd ha hb hal, execFunion_errAlias hd' ha' hb' hal]
    exact sameResponse_raise _ _
  | false =>
    cases hc : compatible a b with
    | false =>
      rw [execFunion_errIncompat hd ha hb hal hc, execFunion_errIncompat hd' ha' hb' hal hc]
      exact sameResponse_raise _ _
    | true =>
      rw [execFunion_ok hd ha hb hal hc, execFunion_ok hd' ha' hb' hal hc]
      exact sameResponse_respond_setSlot _ _ _ _ _ _

end

/-- With every used slot present and every read slot VALID, in both states with the same filter, a command answers the
same. -/
theorem exec_sameResponse (hall : ∀ n ∈ usedSlots i, slotExists s n = true ∧ slotExists s' n = true)
    (hvalid : ∀ n ∈ readSlots i, ∃ f, s.slot n = some f ∧ s'.slot n = some f) (hm : s.maxlgw = s'.maxlgw) :
    SameResponse s s' (exec i s) (exec i s') := by
  cases i with
  | hash msg => exact sameResponse_respond _ _ _
  | fnew fd n p =>
    obtain ⟨hd, hd'⟩ := hall fd List.mem_cons_self
    exact execFnew_sameResponse hd hd' n p hm
  | fload fd W k c ws =>
    obtain ⟨hd, hd'⟩ := hall fd List.mem_cons_self
    exact execFload_sameResponse hd hd' W k c ws hm
  | funion fd fa fb =>
    obtain ⟨hd, hd'⟩ := hall fd List.mem_cons_self
    obtain ⟨a, ha, ha'⟩ := hvalid fa List.mem_cons_self
    obtain ⟨b, hb, hb'⟩ := hvalid fb (List.mem_cons_of_mem fa List.mem_cons_self)
    exact execFunion_sameResponse hd hd' ha ha' hb hb'
  | fadd fd msg =>
    obtain ⟨f, hf, hf'⟩ := hvalid fd List.mem_cons_self
    rw [exec_fadd_eq hf, exec_fadd_eq hf']
    exact ⟨_, _, _, rfl, rfl, rfl, rfl⟩
  | ftest fd msg =>
    obtain ⟨f, hf, hf'⟩ := hvalid fd List.mem_cons_self
    rw [exec_ftest_eq hf, exec_ftest_eq hf']
    exact ⟨_, _, _, rfl, rfl, rfl, rfl⟩
  | fcount fd =>
    obtain ⟨f, hf, hf'⟩ := hvalid fd List.mem_cons_self
    rw [exec_fcount_eq hf, exec_fcount_eq hf']
    exact ⟨_, _, _, rfl, rfl, rfl, rfl⟩
  | fstore fd =>
    obtain ⟨f, hf, hf'⟩ := hvalid fd List.mem_cons_self
    rw [exec_fstore_eq hf, exec_fstore_eq hf']
    exact ⟨_, _, _, rfl, rfl, rfl, rfl⟩

/-- Settles O46: a missing slot or an EMPTY one that is read fails the same check in both states, and past these the
answer is a function of the operands, `MAXLGW` and the filters read. -/
theorem responseDependsOnlyOnSlotsRead : Obligations.ResponseDependsOnlyOnSlotsRead := by
  intro i s s' hn hm hread
  have hx (n) : slotExists s' n = slotExists s n := by simp only [slotExists, hn]
  by_cases hall : ∀ n ∈ usedSlots i, slotExists s n = true
  · have hall' (n) (h : n ∈ usedSlots i) : slotExists s' n = true := (hx n).trans (hall n h)
    by_cases hempty : ∃ n ∈ readSlots i, s.slot n = none
    · obtain ⟨n, hn, hf⟩ := hempty
      rw [exec_errNofilter hall hn hf, exec_errNofilter hall' hn ((hread n hn).symm.trans hf)]
      exact sameResponse_raise _ _
    · refine exec_sameResponse (fun n h => ⟨hall n h, hall' n h⟩) (fun n h => ?_) hm
      obtain ⟨f, hf⟩ := Option.ne_none_iff_exists'.mp fun hf => hempty ⟨n, h, hf⟩
      exact ⟨f, hf, (hread n h).symm.trans hf⟩
  · push Not at hall
    obtain ⟨n, hn, hmissing⟩ := hall
    have hmissing : slotExists s n = false := Bool.eq_false_iff.mpr hmissing
    rw [exec_errSlot hn hmissing, exec_errSlot hn ((hx n).trans hmissing)]
    exact sameResponse_raise _ _

end Sys2Proof.Machine
end
